-- ==== Sys2Proof/Word.lean ====
section
/-! DEFINITION. The word types of TCP-FQ (spec/00_scope.md R6, spec/30_encoding.md R80, R81). -/

namespace Sys2Proof

/-- A wire byte, and every 8-bit field of an operation word (R6, R81). -/
abbrev Byte := BitVec 8

/-- An operation word: exactly 48 bits, bit 0 least significant (R80). -/
abbrev OpWord := BitVec 48

/-- An update's value: 32 bits that the block never interprets (R6). -/
abbrev Value32 := BitVec 32

/-- A 16-bit length or index field (R6, R81). -/
abbrev Half := BitVec 16

end Sys2Proof
end

