-- ==== Sys2Proof/Config.lean ====
section
/-! DEFINITION. The build-time parameters of spec/00_scope.md R5, the two named configurations, and the
free values that stand for storage the spec leaves unspecified (spec/93_implementation_defined.md U2). -/

namespace Sys2Proof

/-- The parameters of R5. "A model takes each one as an argument": the machine carries them in its state,
no step changes them, and a statement about every state is a statement about every configuration. -/
structure Params where
  /-- `SYNC_BYTE`, OPEN. -/
  syncByte : Byte
  /-- `BCAST_ADDR`. -/
  bcastAddr : Byte
  /-- `CRC_POLY` in 9-bit notation. -/
  crcPoly : BitVec 9
  /-- `CRC_INIT`. -/
  crcInit : Byte
  /-- `CRC_REFLECT`; false is MSB first. -/
  crcReflect : Bool
  /-- `CRC_XOROUT`. -/
  crcXorout : Byte
  /-- `SYNC_BUDGET`. -/
  syncBudget : Nat
  /-- `RX_PAYLOAD_MAX`. -/
  rxPayloadMax : Nat
  /-- `TX_PAYLOAD_MAX`. -/
  txPayloadMax : Nat
  /-- `UQ_CAPACITY`. -/
  uqCapacity : Nat
  /-- `FRAME_PAYLOAD_BUDGET`. -/
  framePayloadBudget : Nat
  /-- `ALIVE_PERIOD`. -/
  alivePeriod : Nat
  /-- `CMD_CHAIN_SYNC`, OPEN. -/
  cmdChainSync : Byte
  /-- `CMD_DATA_UPDATE`, OPEN. -/
  cmdDataUpdate : Byte
  /-- `ALIVE_MARKER`, OPEN. -/
  aliveMarker : Byte
deriving DecidableEq, Repr

/-- The default configuration DC: the value column of R5. DESIGN CHOICE: the four OPEN parameters take the
test configuration's values here (log 5); no statement may rest on them. -/
def Params.default : Params where
  syncByte := 0xA7
  bcastAddr := 0x00
  crcPoly := 0x14D
  crcInit := 0x00
  crcReflect := false
  crcXorout := 0x00
  syncBudget := 3000
  rxPayloadMax := 2994
  txPayloadMax := 2994
  uqCapacity := 16
  framePayloadBudget := 64
  alivePeriod := 16
  cmdChainSync := 0x00
  cmdDataUpdate := 0x05
  aliveMarker := 0x01

/-- The test configuration TC of R6. -/
def Params.test : Params where
  syncByte := 0xA7
  bcastAddr := 0x00
  crcPoly := 0x14D
  crcInit := 0x00
  crcReflect := false
  crcXorout := 0x00
  syncBudget := 3000
  rxPayloadMax := 2994
  txPayloadMax := 16
  uqCapacity := 4
  framePayloadBudget := 11
  alivePeriod := 3
  cmdChainSync := 0x00
  cmdDataUpdate := 0x05
  aliveMarker := 0x01

/-- FREE VALUE: what `RxBuf[i]` holds when nothing has written it since reset number `k` (U2, log 8). -/
opaque Config.freeRxByte : (k i : Nat) → Byte

/-- FREE VALUE: the id that `Slot[i]` holds when nothing has written it since reset number `k` (U2, log 9). -/
opaque Config.freeSlotId : (k i : Nat) → Byte

/-- FREE VALUE: the value that `Slot[i]` holds when nothing has written it since reset number `k` (U2, log 9). -/
opaque Config.freeSlotValue : (k i : Nat) → Value32

end Sys2Proof
end

