-- ==== Sys2Proof/Syntax.lean ====
section
/-! DEFINITION. The instructions of TCP-FQ, one constructor per row of spec/opcode_table.json, the formats
of spec/30_encoding.md R81, and the assembly lines of R91 and R92. -/

namespace Sys2Proof

/-- One operation of the command port (R82). A field has the width R81 gives it, so every term is one that
a word can carry. -/
inductive Instr where
  /-- RX_BYTE: consume one received byte (spec/40_receive.md R121). -/
  | rxByte (b : Byte)
  /-- Q_PUSH: append one update (spec/41_queue.md R160). -/
  | qPush (id : Byte) (v : Value32)
  /-- Q_POP: remove and report the oldest update (R161). -/
  | qPop
  /-- Q_CLEAR: discard every pending update (R162). -/
  | qClear
  /-- FRAME_TICK: the frame-boundary tick (spec/42_transmit.md R193). -/
  | frameTick
  /-- SET_ADDR: set this device's address state (spec/40_receive.md R140). -/
  | setAddr (a : Byte) (assigned : Bool)
  /-- TXB_WR: write one byte of the transmit payload buffer (spec/42_transmit.md R191). -/
  | txbWr (i : Half) (b : Byte)
  /-- TX_SEND: send one frame built from the staged payload (R192). -/
  | txSend (a c : Byte) (len : Half)
deriving DecidableEq, Repr

/-- The six formats of R81. -/
inductive Format where
  | N | B | P | S | W | T
deriving DecidableEq, Repr

/-- One row of the opcode map (R82). -/
structure OpcodeRow where
  opcode : Nat
  mnemonic : String
  format : Format
  pattern : OpWord
  mask : OpWord
deriving DecidableEq, Repr

/-- One line of the assembly notation of R91, its operands as the numbers that were written. -/
inductive AsmLine where
  | rxb (b : Nat)
  | qpush (id v : Nat)
  | qpop
  | qclr
  | tick
  | setaddr (a s : Nat)
  | txbw (i b : Nat)
  | txsend (a c l : Nat)
  /-- `.w48 x`: a raw word, which may be illegal. -/
  | w48 (x : Nat)
deriving DecidableEq, Repr

/-- A source line: one operation, or a pseudo-operation of R92. -/
inductive AsmSource where
  | line (l : AsmLine)
  | feed (bytes : List Nat)
  | sendframe (a c : Nat) (payload : List Nat)
  | unassign
deriving DecidableEq, Repr

end Sys2Proof
end

