-- ==== Sys2Proof/WellFormed.lean ====
section
/-! DEFINITION. What is checked before the machine runs: the ranges of a configuration (spec/00_scope.md R5)
and the operands of an assembly line (spec/30_encoding.md R91). An `Instr` needs no check: each operand's type
has exactly its field's width (R81). -/

namespace Sys2Proof

/-- The constraints of R5. "A configuration outside these ranges is refused by the model." -/
def Params.wellFormed (p : Params) : Bool :=
  decide (1 ≤ p.uqCapacity) && decide (p.uqCapacity ≤ 255) &&
  decide (6 ≤ p.framePayloadBudget) && decide (p.framePayloadBudget ≤ p.txPayloadMax) &&
  decide (p.txPayloadMax ≤ 65535) && decide (p.rxPayloadMax ≤ 65535) &&
  decide (7 ≤ p.syncBudget) && decide (p.syncBudget ≤ 4095) &&
  decide (1 ≤ p.alivePeriod) && decide (p.alivePeriod ≤ 65535)

/-- "An operand that does not fit its field is an assembly error" (R91). -/
def AsmLine.wellFormed : AsmLine → Bool
  | .rxb b => decide (b < 2 ^ 8)
  | .qpush id v => decide (id < 2 ^ 8) && decide (v < 2 ^ 32)
  | .qpop => true
  | .qclr => true
  | .tick => true
  | .setaddr a s => decide (a < 2 ^ 8) && decide (s < 2)
  | .txbw i b => decide (i < 2 ^ 16) && decide (b < 2 ^ 8)
  | .txsend a c l => decide (a < 2 ^ 8) && decide (c < 2 ^ 8) && decide (l < 2 ^ 16)
  | .w48 x => decide (x < 2 ^ 48)

end Sys2Proof
end

