-- ==== Sys2Proof/Decode.lean ====
section
/-! DEFINITION. The decoder and the encoder of spec/30_encoding.md R81 to R85. -/

namespace Sys2Proof

/-- Why a word names no operation (R83). -/
inductive IllegalReason where
  /-- `OP` is 0x0 or one of 0x9 to 0xF. -/
  | reservedOpcode (op : Nat)
  /-- A must-be-zero bit of the opcode's format is 1. -/
  | mustBeZero (f : Format)
deriving DecidableEq, Repr

/-- What a word decodes to: "every 48-bit word names exactly one operation of rule R82, or is illegal" (R84). -/
inductive Decoded where
  | operation (i : Instr)
  | illegal (why : IllegalReason)
deriving DecidableEq, Repr

/-- The mnemonic of the row an instruction stands for (R82). -/
def Instr.mnemonic : Instr → String
  | .rxByte _ => "RX_BYTE"
  | .qPush _ _ => "Q_PUSH"
  | .qPop => "Q_POP"
  | .qClear => "Q_CLEAR"
  | .frameTick => "FRAME_TICK"
  | .setAddr _ _ => "SET_ADDR"
  | .txbWr _ _ => "TXB_WR"
  | .txSend _ _ _ => "TX_SEND"

/-- The opcode map, copied from the table of R82. -/
def opcodeRows : List OpcodeRow :=
  [ ⟨0x1, "RX_BYTE", .B, 0x000000000001, 0xFFFFFFFFF00F⟩,
    ⟨0x2, "Q_PUSH", .P, 0x000000000002, 0xF0000000000F⟩,
    ⟨0x3, "Q_POP", .N, 0x000000000003, 0xFFFFFFFFFFFF⟩,
    ⟨0x4, "Q_CLEAR", .N, 0x000000000004, 0xFFFFFFFFFFFF⟩,
    ⟨0x5, "FRAME_TICK", .N, 0x000000000005, 0xFFFFFFFFFFFF⟩,
    ⟨0x6, "SET_ADDR", .S, 0x000000000006, 0xFFFFFFFFE00F⟩,
    ⟨0x7, "TXB_WR", .W, 0x000000000007, 0xFFFFF000000F⟩,
    ⟨0x8, "TX_SEND", .T, 0x000000000008, 0xFFF00000000F⟩ ]

/-- "An operation word `w` selects the operation whose row satisfies `(w AND mask) = match`" (R82). -/
def OpcodeRow.selects (r : OpcodeRow) (w : OpWord) : Bool := w &&& r.mask == r.pattern

/-- How many low bits of a word a format's fields take; every bit above them must be zero (R81). -/
def Format.usedBits : Format → Nat
  | .N => 4
  | .B => 12
  | .P => 44
  | .S => 13
  | .W => 28
  | .T => 36

/-- `OP = w[3:0]` (R81). -/
def opField (w : OpWord) : BitVec 4 := w.extractLsb' 0 4

/-- `A8 = w[11:4]` (R81). -/
def a8Field (w : OpWord) : Byte := w.extractLsb' 4 8

/-- `V32 = w[43:12]` of format P (R81). -/
def v32Field (w : OpWord) : Value32 := w.extractLsb' 12 32

/-- `S1 = w[12]` of format S (R81). -/
def s1Field (w : OpWord) : Bool := w.getLsbD 12

/-- `I16 = w[27:12]` of format W (R81). -/
def i16Field (w : OpWord) : Half := w.extractLsb' 12 16

/-- `B8 = w[19:12]` of format T (R81). -/
def b8Field (w : OpWord) : Byte := w.extractLsb' 12 8

/-- `L16 = w[35:20]` of format T (R81). -/
def l16Field (w : OpWord) : Half := w.extractLsb' 20 16

/-- Every must-be-zero bit of the format is 0: no bit at or above the format's fields (R81). -/
def mbzClear (f : Format) (w : OpWord) : Bool := decide (w.toNat < 2 ^ f.usedBits)

/-- A word of format `f` is `i` if its must-be-zero bits are 0, and illegal otherwise (R83). -/
def decodeAs (f : Format) (w : OpWord) (i : Instr) : Decoded :=
  if mbzClear f w then .operation i else .illegal (.mustBeZero f)

/-- Decoding is total on 48-bit words and depends on no state (R84, R85). -/
def decodeWord (w : OpWord) : Decoded :=
  match (opField w).toNat with
  | 0x1 => decodeAs .B w (.rxByte (a8Field w))
  | 0x2 => decodeAs .P w (.qPush (a8Field w) (v32Field w))
  | 0x3 => decodeAs .N w .qPop
  | 0x4 => decodeAs .N w .qClear
  | 0x5 => decodeAs .N w .frameTick
  | 0x6 => decodeAs .S w (.setAddr (a8Field w) (s1Field w))
  | 0x7 => decodeAs .W w (.txbWr (i16Field w) (a8Field w))
  | 0x8 => decodeAs .T w (.txSend (a8Field w) (b8Field w) (l16Field w))
  | op => .illegal (.reservedOpcode op)

/-- The word of an instruction: from bit 0 up `OP`, then each field at the position R81 gives it, and every bit above
the format's fields 0. -/
def encode : Instr → OpWord
  | .rxByte b => (b ++ 0x1#4).setWidth 48
  | .qPush id v => (v ++ id ++ 0x2#4).setWidth 48
  | .qPop => (0x3#4).setWidth 48
  | .qClear => (0x4#4).setWidth 48
  | .frameTick => (0x5#4).setWidth 48
  | .setAddr a s => (BitVec.ofBool s ++ a ++ 0x6#4).setWidth 48
  | .txbWr i b => (i ++ b ++ 0x7#4).setWidth 48
  | .txSend a c len => (len ++ c ++ a ++ 0x8#4).setWidth 48

/-- The decoder on a row's bits as spec/opcode_table.json numbers them. A word is one 48-bit quantity (R80),
so the bits above `nbits` are 0 and a number of more than 48 bits is no word (log 20). -/
def decodeTableWord (nbits w : Nat) : Option Instr :=
  if nbits ≤ 48 then
    match decodeWord (BitVec.ofNat 48 (w % 2 ^ nbits)) with
    | .operation i => some i
    | .illegal _ => none
  else none

end Sys2Proof
end

