-- ==== Sys2Proof/Machine/Crc.lean ====
section
/-! DEFINITION. The CRC-8 of spec/40_receive.md R120. -/

namespace Sys2Proof.Machine

/-- The register feedback constant: the generator without its `x^8` bit, 0x4D for 0x14D (R120, log 13). -/
def crcFeedback (p : Params) : Byte := p.crcPoly.setWidth 8

/-- The feedback constant of the reflected form, bit-reversed: 0xB2 for 0x14D (R120, log 13). -/
def crcFeedbackReflected (p : Params) : Byte := (crcFeedback p).reverse

/-- One of the eight shifts of `crc8_step`, in the bit order `CRC_REFLECT` gives (R120). -/
def crcShift (p : Params) (c : Byte) : Byte :=
  if p.crcReflect then
    if c.getLsbD 0 then (c >>> 1) ^^^ crcFeedbackReflected p else c >>> 1
  else
    if c.getLsbD 7 then (c <<< 1) ^^^ crcFeedback p else c <<< 1

/-- `k` shifts. -/
def crcShifts (p : Params) : Nat → Byte → Byte
  | 0, c => c
  | k + 1, c => crcShifts p k (crcShift p c)

/-- `crc8_step` (R120). -/
def crc8Step (p : Params) (c b : Byte) : Byte := crcShifts p 8 (c ^^^ b)

/-- The CRC register after the bytes `m`, from the value `c`. -/
def crcRun (p : Params) (c : Byte) (m : List Byte) : Byte := m.foldl (crc8Step p) c

/-- `crc8(m) = (foldl crc8_step CRC_INIT m) XOR CRC_XOROUT` (R120). -/
def crc8 (p : Params) (m : List Byte) : Byte := crcRun p p.crcInit m ^^^ p.crcXorout

end Sys2Proof.Machine
end

