-- ==== Sys2Proof/Machine/State.lean ====
section
/-! DEFINITION. The state of the machine (spec/10_state.md R22 to R36), its events (spec/00_scope.md R9), the
reasons it stops, and its state after reset (R50). -/

namespace Sys2Proof.Machine

/-- The decoder's seven states (R23). Value 7 of the 3-bit encoding is never reached and is not represented
(spec/93_implementation_defined.md U3). -/
inductive RxState where
  | idle | readAddress | readCommand | readLengthLow | readLengthHigh | readPayload | readCrc
deriving DecidableEq, Repr

/-- One queue entry `{id:8, value:32}` (R31). -/
structure Entry where
  id : Byte
  value : Value32
deriving DecidableEq, Repr

/-- The events an operation can emit (spec/00_scope.md R9). -/
inductive Event where
  | frameOk (addr cmd : Byte) (payload : List Byte)
  | crcError
  | lenError
  | budgetExhausted
  /-- One transport write. -/
  | txWrite (bytes : List Byte)
  | popped (id : Byte) (value : Value32)
  | popEmpty
  | illegalOp (word : OpWord)
  | txLenError
  | txRangeError
deriving DecidableEq, Repr

/-- What the integrator presents to the block (spec/30_encoding.md R80, spec/70_reset_and_hazards.md R260, R261). -/
inductive PortInput where
  /-- An operation word on the command port. -/
  | operation (w : OpWord)
  /-- Reset is asserted. -/
  | reset
  /-- Reset is asserted in the same cycle as an operation is presented. -/
  | resetWithOperation (w : OpWord)
deriving DecidableEq, Repr

/-- An indexed memory: (index, element) pairs, indices strictly rising. An index that is not listed has not
been written since the last reset and has no value of its own (logs 7, 8, 9). -/
abbrev Store (α : Type) := List (Nat × α)

/-- A memory of bytes (spec/20_memory.md R60). -/
abbrev Memory := List Host.Cell

/-- Why the model stops. The hardware has no fault (spec/60_exceptions.md R230). -/
inductive Fault where
  /-- Raised by SendFrame, so by TX_SEND: `TxBuf[i]` was never written since reset (spec/42_transmit.md R190,
  U1). Safe: the hardware goes on and sends an unspecified byte. -/
  | unwrittenTxByte (i : Nat)
  /-- Raised by RX_BYTE: `RxBuf` has no byte `i`. No run from a valid configuration reaches it. Safe. -/
  | rxBufIndex (i : Nat)
  /-- Raised by TXB_WR and FRAME_TICK: `TxBuf` has no byte `i`. No run from a valid configuration reaches it. Safe. -/
  | txBufIndex (i : Nat)
  /-- Raised by Q_PUSH, Q_POP and FRAME_TICK: the ring has no slot `i`. No run from a valid configuration
  reaches it. Safe. -/
  | slotIndex (i : Nat)
  /-- Raised by FRAME_TICK: PopEntry answered none inside the drain loop, where R193 says "never none here". No
  run from a valid configuration reaches it. Safe. -/
  | drainUnderflow
deriving DecidableEq, Repr

/-- What the model does not represent. -/
inductive Refusal where
  /-- Raised by exec's arm of an instruction that has no meaning yet. No arm raises it now. Safe. -/
  | notModelled (mnemonic : String)
  /-- Raised by the step: the parameters are outside the ranges of spec/00_scope.md R5 (U10). Safe: it is no build
  of the block. -/
  | invalidConfiguration
deriving DecidableEq, Repr

/-- The machine: the fields of R22, the block's interface (R36, spec/60_exceptions.md R232, spec/70_reset_and_hazards.md
R271), what the integrator will do, and the model's own counter and parameters. -/
structure State where
  /-- The build-time parameters (spec/00_scope.md R5); no step changes them (R42). -/
  params : Params
  /-- `S.rx_state`. -/
  rxState : RxState
  /-- `S.rx_addr`. -/
  rxAddr : Byte
  /-- `S.rx_cmd`. -/
  rxCmd : Byte
  /-- `S.rx_len`. -/
  rxLen : Half
  /-- `S.rx_idx`. -/
  rxIdx : Half
  /-- `S.rx_crc`. -/
  rxCrc : Byte
  /-- `RxBuf`. -/
  rxBuf : Memory
  /-- `S.byte_count`. -/
  byteCount : BitVec 12
  /-- `S.dev_addr`. -/
  devAddr : Byte
  /-- `S.addr_assigned`. -/
  addrAssigned : Bool
  /-- `Slot`. -/
  slots : Store Entry
  /-- `S.q_head`. -/
  qHead : Byte
  /-- `S.q_tail`. -/
  qTail : Byte
  /-- `TxBuf`, and `TxWritten` with it: byte `i` is listed exactly when `TxWritten[i] = 1` (R34). -/
  txBuf : Memory
  /-- `S.idle_ticks`. -/
  idleTicks : Half
  /-- `OUT` (R36). -/
  out : List Event
  /-- The events of the current operation that the integrator has not taken; the first is the one offered (R232). -/
  untaken : List Event
  /-- What the integrator presents, in order. -/
  port : List PortInput
  /-- How many more events the integrator will take. -/
  takes : Nat
  /-- The number of resets since power-on: which free values unwritten storage holds (log 8). -/
  resets : Nat
deriving DecidableEq, Repr

/-- A block built with parameters `p`, right after reset (R50): memories not initialised, nothing emitted,
nothing presented. -/
def State.powerOn (p : Params) : State where
  params := p
  rxState := .idle
  rxAddr := 0x00
  rxCmd := 0x00
  rxLen := 0x0000
  rxIdx := 0x0000
  rxCrc := p.crcInit
  rxBuf := []
  byteCount := 0
  devAddr := 0x00
  addrAssigned := false
  slots := []
  qHead := 0
  qTail := 0
  txBuf := []
  idleTicks := 0
  out := []
  untaken := []
  port := []
  takes := 0
  resets := 0

/-- The machine right after reset, in the default configuration of R5 (log 5). -/
def State.reset : State := State.powerOn Params.default

end Sys2Proof.Machine
end

