-- ==== Sys2Proof/Machine/Ops.lean ====
section
/-! DEFINITION. The operations every meaning shares: sequencing of outcomes, the indexed memories
(spec/20_memory.md R60), emitting events (spec/00_scope.md R8), taking them (spec/70_reset_and_hazards.md R271),
reset (R260) and the illegal operation (spec/30_encoding.md R83). The block takes no exception and returns from
none (spec/60_exceptions.md R234, R235). -/

namespace Sys2Proof.Machine

/-- Go on with a next value; a fault or a refusal ends the operation. -/
def andThen {α β : Type} (o : Host.Outcome α Fault Refusal) (f : α → Host.Outcome β Fault Refusal) :
    Host.Outcome β Fault Refusal :=
  match o with
  | .next a => f a
  | .fault r => .fault r
  | .refused r => .refused r

/-! ### Derived parameters -/

/-- `UPD_MAX`, derived: `min(255, (FRAME_PAYLOAD_BUDGET - 1) div 5)` (spec/00_scope.md R5, spec/42_transmit.md R194). -/
def updMax (p : Params) : Nat := min 255 ((p.framePayloadBudget - 1) / 5)

/-- The number of ring slots, `N = UQ_CAPACITY + 1` (spec/10_state.md R31). -/
def ringSize (p : Params) : Nat := p.uqCapacity + 1

/-! ### Indexed memories -/

/-- The element at index `i`, if it has been written. -/
def Store.read {α : Type} : Store α → Nat → Option α
  | [], _ => none
  | (j, u) :: rest, i => if j = i then some u else Store.read rest i

/-- Write the element at index `i`; the indices stay strictly rising. -/
def Store.write {α : Type} : Store α → Nat → α → Store α
  | [], i, v => [(i, v)]
  | (j, u) :: rest, i, v =>
    if i < j then (i, v) :: (j, u) :: rest
    else if i = j then (i, v) :: rest
    else (j, u) :: Store.write rest i v

/-- The canonical form: every index is at least `lo`, and they rise strictly. -/
def Store.risesFrom {α : Type} : Nat → Store α → Bool
  | _, [] => true
  | lo, (j, _) :: rest => decide (lo ≤ j) && Store.risesFrom (j + 1) rest

/-- The canonical form of an indexed memory. An unlisted index has no value, so no entry can repeat one. -/
def Store.wf {α : Type} (m : Store α) : Bool := Store.risesFrom 0 m

/-- Every listed index is below the memory's size. -/
def Store.within {α : Type} (size : Nat) (m : Store α) : Bool := m.all fun c => decide (c.1 < size)

/-- The canonical form of a byte memory. -/
def Memory.wf (m : Memory) : Bool := Store.wf m

/-! ### Events -/

/-- `emit`: the events of one operation, appended in emission order to `OUT` (R8), and offered to the
integrator in that order (R232). -/
def State.emit (s : State) (es : List Event) : State :=
  { s with out := s.out ++ es, untaken := s.untaken ++ es }

/-- The integrator takes the offered event if it will take one more; otherwise the event stays offered and
nothing changes (R232, R271, spec/93_implementation_defined.md U12). -/
def State.takeOffered (s : State) : State :=
  match s.takes, s.untaken with
  | n + 1, _ :: es => { s with untaken := es, takes := n }
  | _, _ => s

/-- Every event has been taken, as an integrator that keeps up with the block takes them. -/
def State.takeAll (s : State) : State := { s with untaken := [] }

/-- The events in `OUT` after `t` that were not there after `s`. -/
def newEvents (s t : State) : List Event := t.out.drop s.out.length

/-! ### Reset and the illegal operation -/

/-- Reset (R260): "every state field to its value in R50". The memories hold unspecified contents from here on: nothing
is listed, and the next free values stand for what they hold (logs 8 to 10). The parameters, `OUT` and the
integrator's side stay. -/
def State.applyReset (s : State) : State :=
  { s with
    rxState := .idle
    rxAddr := 0x00
    rxCmd := 0x00
    rxLen := 0x0000
    rxIdx := 0x0000
    rxCrc := s.params.crcInit
    rxBuf := []
    byteCount := 0
    devAddr := 0x00
    addrAssigned := false
    slots := []
    qHead := 0
    qTail := 0
    txBuf := []
    idleTicks := 0
    resets := s.resets + 1 }

/-- An illegal word: "`emit IllegalOp(w)` and changes no state" (R83). -/
def illegalOperation (w : OpWord) (s : State) : Host.Outcome State Fault Refusal :=
  .next (s.emit [.illegalOp w])

end Sys2Proof.Machine
end

