-- ==== Sys2Proof/Machine/Operands.lean ====
section
/-! DEFINITION. Byte order (spec/20_memory.md R62) and the accesses to the three internal memories (R60). The
operand fields of a word are read by Sys2Proof/Decode.lean (spec/30_encoding.md R84); no operand has any other form. -/

namespace Sys2Proof.Machine

/-! ### Byte order -/

/-- `len[7:0]`. -/
def lengthLow (len : Half) : Byte := len.extractLsb' 0 8

/-- `len[15:8]`. -/
def lengthHigh (len : Half) : Byte := len.extractLsb' 8 8

/-- `{length_hi, length_lo}`, the 16-bit length (spec/30_encoding.md R86). -/
def lengthOf (hi lo : Byte) : Half := hi ++ lo

/-- The four bytes of an update's value, least significant first (R62). -/
def valueBytes (v : Value32) : List Byte :=
  [v.extractLsb' 0 8, v.extractLsb' 8 8, v.extractLsb' 16 8, v.extractLsb' 24 8]

/-! ### `RxBuf` -/

/-- `MemRead(RxBuf, i, 1)`: a byte nothing has written since reset is a free value (U2, log 8). -/
def rxBufByte (s : State) (i : Nat) : Byte :=
  (Store.read s.rxBuf i).getD (Config.freeRxByte s.resets i)

/-- `RxBuf[0 .. n)`, in order. -/
def rxBufBytes (s : State) (n : Nat) : List Byte := (List.range n).map (rxBufByte s)

/-- `MemWrite(RxBuf, i, 1, b)`; `RxBuf` has `RX_PAYLOAD_MAX` bytes (R60, log 11). -/
def storeRx (i : Nat) (b : Byte) (s : State) : Host.Outcome State Fault Refusal :=
  if i < s.params.rxPayloadMax then .next { s with rxBuf := Store.write s.rxBuf i b }
  else .fault (.rxBufIndex i)

/-! ### `Slot` -/

/-- `Slot[i]`: an entry nothing has written since reset is a free value (U2, log 9). -/
def slotEntry (s : State) (i : Nat) : Entry :=
  (Store.read s.slots i).getD ⟨Config.freeSlotId s.resets i, Config.freeSlotValue s.resets i⟩

/-- `Slot[i] <- e`; the ring has `UQ_CAPACITY + 1` slots (R60, log 11). -/
def storeSlot (i : Nat) (e : Entry) (s : State) : Host.Outcome State Fault Refusal :=
  if i < ringSize s.params then .next { s with slots := Store.write s.slots i e }
  else .fault (.slotIndex i)

/-- Read `Slot[i]` and go on with it; the ring has `UQ_CAPACITY + 1` slots (R60, log 11). -/
def loadSlot (i : Nat) (s : State) : Host.Outcome Entry Fault Refusal :=
  if i < ringSize s.params then .next (slotEntry s i) else .fault (.slotIndex i)

/-! ### `TxBuf` -/

/-- `MemWrite(TxBuf, i, 1, b); TxWritten[i] <- 1`; `TxBuf` has `TX_PAYLOAD_MAX` bytes (R60, logs 7, 11). -/
def storeTx (i : Nat) (b : Byte) (s : State) : Host.Outcome State Fault Refusal :=
  if i < s.params.txPayloadMax then .next { s with txBuf := Store.write s.txBuf i b }
  else .fault (.txBufIndex i)

/-- The bytes `bs` into `TxBuf` from index `i` up, lowest index first. -/
def storeTxRun : Nat → List Byte → State → Host.Outcome State Fault Refusal
  | _, [], s => .next s
  | i, b :: bs, s => andThen (storeTx i b s) (storeTxRun (i + 1) bs)

/-- The `n` bytes of `TxBuf` from index `i` up; the first byte that was never written is the fault of
spec/42_transmit.md R190 (U1). -/
def loadTxRun (m : Memory) : (i n : Nat) → Host.Outcome (List Byte) Fault Refusal
  | _, 0 => .next []
  | i, n + 1 =>
    match Store.read m i with
    | none => .fault (.unwrittenTxByte i)
    | some b => andThen (loadTxRun m (i + 1) n) fun bs => .next (b :: bs)

end Sys2Proof.Machine
end

