-- ==== Sys2Proof/Machine/Wire.lean ====
section
/-! DEFINITION. The wire frame and the payloads the block builds (spec/30_encoding.md R86, R89, R90). -/

namespace Sys2Proof.Machine

/-- Offsets 1 .. 4+len of a frame: address, command, length and payload, the bytes the CRC covers (R86). -/
def frameHead (a c : Byte) (payload : List Byte) : List Byte :=
  let len := BitVec.ofNat 16 payload.length
  [a, c, lengthLow len, lengthHigh len] ++ payload

/-- A frame after its sync byte: the second write of SendFrame (spec/42_transmit.md R190). -/
def frameBody (p : Params) (a c : Byte) (payload : List Byte) : List Byte :=
  frameHead a c payload ++ [crc8 p (frameHead a c payload)]

/-- A frame on the wire (R86): the sync byte, then the rest. No byte is escaped and no flag closes it. -/
def wireFrame (p : Params) (a c : Byte) (payload : List Byte) : List Byte :=
  p.syncByte :: frameBody p a c payload

/-- The five bytes of one update in a DataUpdate payload (R89). -/
def entryBytes (e : Entry) : List Byte := e.id :: valueBytes e.value

/-- The DataUpdate payload of the updates `es`, oldest first: the count, then five bytes each (R89). -/
def dataUpdatePayload (es : List Entry) : List Byte :=
  BitVec.ofNat 8 es.length :: es.flatMap entryBytes

/-- The alive ChainSync payload (R90). -/
def alivePayload (p : Params) : List Byte := [p.aliveMarker]

end Sys2Proof.Machine
end

