-- ==== Sys2Proof/Machine/Receive.lean ====
section
/-! DEFINITION. The receive family: RX_BYTE and SET_ADDR (spec/40_receive.md R121 to R140). -/

namespace Sys2Proof.Machine

/-- The address filter (R129). It reads the address state at the moment the address byte is consumed. -/
def acceptsAddress (s : State) (a : Byte) : Bool :=
  (a == s.params.bcastAddr) || !s.addrAssigned || (a == s.devAddr)

/-- What one DecodeStep does: the state after it, the events it emits, and whether it validated a frame (R121). -/
structure RxResult where
  state : State
  events : List Event
  validated : Bool
deriving DecidableEq, Repr

/-- DecodeStep in `Idle`: sync detection (R122). -/
def decodeIdle (b : Byte) (s : State) : RxResult :=
  ⟨if b = s.params.syncByte then { s with rxState := .readAddress } else s, [], false⟩

/-- DecodeStep in `ReadAddress`: the address filter, and the CRC started (R123). -/
def decodeAddress (b : Byte) (s : State) : RxResult :=
  if acceptsAddress s b then
    ⟨{ s with rxAddr := b, rxCrc := crc8Step s.params s.params.crcInit b, rxState := .readCommand }, [], false⟩
  else ⟨{ s with rxState := .idle }, [], false⟩

/-- DecodeStep in `ReadCommand`: every command value is taken (R124). -/
def decodeCommand (b : Byte) (s : State) : RxResult :=
  ⟨{ s with rxCmd := b, rxCrc := crc8Step s.params s.rxCrc b, rxState := .readLengthLow }, [], false⟩

/-- DecodeStep in `ReadLengthLow` (R125). -/
def decodeLengthLow (b : Byte) (s : State) : RxResult :=
  ⟨{ s with rxLen := b.setWidth 16, rxCrc := crc8Step s.params s.rxCrc b, rxState := .readLengthHigh }, [], false⟩

/-- DecodeStep in `ReadLengthHigh`: a zero-length frame goes to the CRC, an overlength frame is dropped (R126). -/
def decodeLengthHigh (b : Byte) (s : State) : RxResult :=
  let len := lengthOf b (lengthLow s.rxLen)
  let t := { s with rxLen := len, rxCrc := crc8Step s.params s.rxCrc b, rxIdx := 0 }
  if len = 0 then ⟨{ t with rxState := .readCrc }, [], false⟩
  else if s.params.rxPayloadMax < len.toNat then ⟨{ t with rxState := .idle }, [.lenError], false⟩
  else ⟨{ t with rxState := .readPayload }, [], false⟩

/-- DecodeStep in `ReadPayload`: one payload byte stored (R127). -/
def decodePayload (b : Byte) (s : State) : Host.Outcome RxResult Fault Refusal :=
  andThen (storeRx s.rxIdx.toNat b s) fun t =>
    let idx := t.rxIdx + 1
    .next ⟨{ t with
      rxIdx := idx
      rxCrc := crc8Step t.params t.rxCrc b
      rxState := if idx = t.rxLen then .readCrc else .readPayload }, [], false⟩

/-- DecodeStep in `ReadCrc`: the frame is validated or refused, and the decoder is in `Idle` either way (R128).
`RxBuf` has `RX_PAYLOAD_MAX` bytes (log 11). -/
def decodeCrc (b : Byte) (s : State) : Host.Outcome RxResult Fault Refusal :=
  if b = s.rxCrc ^^^ s.params.crcXorout then
    if s.rxLen.toNat ≤ s.params.rxPayloadMax then
      .next ⟨{ s with rxState := .idle }, [.frameOk s.rxAddr s.rxCmd (rxBufBytes s s.rxLen.toNat)], true⟩
    else .fault (.rxBufIndex s.params.rxPayloadMax)
  else .next ⟨{ s with rxState := .idle }, [.crcError], false⟩

/-- DecodeStep: one case of R122 to R128, chosen by `S.rx_state` (R121). -/
def decodeStep (b : Byte) (s : State) : Host.Outcome RxResult Fault Refusal :=
  match s.rxState with
  | .idle => .next (decodeIdle b s)
  | .readAddress => .next (decodeAddress b s)
  | .readCommand => .next (decodeCommand b s)
  | .readLengthLow => .next (decodeLengthLow b s)
  | .readLengthHigh => .next (decodeLengthHigh b s)
  | .readPayload => decodePayload b s
  | .readCrc => decodeCrc b s

/-- Guard, the liveness guard, run after DecodeStep on every byte (R132). Its event follows the decoder's (R133). -/
def guardBytes (r : RxResult) : State × List Event :=
  if r.validated then ({ r.state with byteCount := 0 }, r.events)
  else
    let count := r.state.byteCount + 1
    if count.toNat = r.state.params.syncBudget then
      ({ r.state with rxState := .idle, byteCount := 0 }, r.events ++ [.budgetExhausted])
    else ({ r.state with byteCount := count }, r.events)

/-- RX_BYTE: consume one received byte (R121). -/
def execRxByte (b : Byte) (s : State) : Host.Outcome State Fault Refusal :=
  andThen (decodeStep b s) fun r => .next ((guardBytes r).1.emit (guardBytes r).2)

/-- SET_ADDR: set this device's address state (R140). -/
def execSetAddr (a : Byte) (assigned : Bool) (s : State) : Host.Outcome State Fault Refusal :=
  .next { s with devAddr := a, addrAssigned := assigned }

end Sys2Proof.Machine
end

