-- ==== Sys2Proof/Machine/Flags.lean ====
section
/-! DEFINITION. The derived count, flags and status words (spec/10_state.md R32, R33, R40 to R42). Each is a pure
function of the state: reading one has no side effect and no operation writes one. -/

namespace Sys2Proof.Machine

/-- `q_count = (S.q_head + N - S.q_tail) mod N`, on naturals (R32). -/
def qCount (s : State) : Nat :=
  (s.qHead.toNat + ringSize s.params - s.qTail.toNat) % ringSize s.params

/-- `q_empty` (R33). -/
def qEmpty (s : State) : Bool := qCount s == 0

/-- `q_full` (R33). -/
def qFull (s : State) : Bool := qCount s == s.params.uqCapacity

/-- The encoding of `S.rx_state` (R23). -/
def RxState.code : RxState → BitVec 3
  | .idle => 0
  | .readAddress => 1
  | .readCommand => 2
  | .readLengthLow => 3
  | .readLengthHigh => 4
  | .readPayload => 5
  | .readCrc => 6

/-- STATUS0 (R40): from the top, zero, QFULL, QEMPTY, QCOUNT, DEVADDR, ASG, RXS. -/
def status0 (s : State) : BitVec 32 :=
  0#10 ++ BitVec.ofBool (qFull s) ++ BitVec.ofBool (qEmpty s) ++ BitVec.ofNat 8 (qCount s) ++ s.devAddr ++
    BitVec.ofBool s.addrAssigned ++ s.rxState.code

/-- STATUS1 (R41): from the top, IDLE, zero, BCOUNT. -/
def status1 (s : State) : BitVec 32 := s.idleTicks ++ 0#4 ++ s.byteCount

end Sys2Proof.Machine
end

