-- ==== Sys2Proof/Machine/Queue.lean ====
section
/-! DEFINITION. The update-queue family: Q_PUSH, Q_POP and Q_CLEAR (spec/41_queue.md R160 to R162). -/

namespace Sys2Proof.Machine

/-- A ring pointer moved on by one: `(p + 1) mod N` (spec/00_scope.md R10). -/
def ringNext (s : State) (p : Byte) : Byte := BitVec.ofNat 8 ((p.toNat + 1) % ringSize s.params)

/-- Q_PUSH: append one update, or drop it silently if the queue is full (R160). -/
def execQPush (id : Byte) (v : Value32) (s : State) : Host.Outcome State Fault Refusal :=
  if qFull s then .next s
  else andThen (storeSlot s.qHead.toNat ⟨id, v⟩ s) fun t => .next { t with qHead := ringNext t t.qHead }

/-- PopEntry, shared by Q_POP and FRAME_TICK: the oldest entry if there is one, and the state after (R161). -/
def popEntry (s : State) : Host.Outcome (Option Entry × State) Fault Refusal :=
  if qEmpty s then .next (none, s)
  else andThen (loadSlot s.qTail.toNat s) fun e => .next (some e, { s with qTail := ringNext s s.qTail })

/-- Q_POP: remove and report the oldest update (R161). -/
def execQPop (s : State) : Host.Outcome State Fault Refusal :=
  andThen (popEntry s) fun r =>
    match r with
    | (none, t) => .next (t.emit [.popEmpty])
    | (some e, t) => .next (t.emit [.popped e.id e.value])

/-- Q_CLEAR: discard every pending update; `Slot` is left as it was (R162). -/
def execQClear (s : State) : Host.Outcome State Fault Refusal := .next { s with qHead := 0, qTail := 0 }

end Sys2Proof.Machine
end

