-- ==== Sys2Proof/Machine/Transmit.lean ====
section
/-! DEFINITION. The transmit family: SendFrame, TXB_WR, TX_SEND and FRAME_TICK (spec/42_transmit.md R190 to R201). -/

namespace Sys2Proof.Machine

/-- SendFrame: one frame as two transport writes, the sync byte and then the rest (R190). It changes no state. A
payload byte that was never written is the fault of R190. -/
def sendFrame (a c : Byte) (len : Nat) (s : State) : Host.Outcome State Fault Refusal :=
  andThen (loadTxRun s.txBuf 0 len) fun payload =>
    .next (s.emit [.txWrite [s.params.syncByte], .txWrite (frameBody s.params a c payload)])

/-- TXB_WR: write one byte of the transmit payload buffer (R191). -/
def execTxbWr (i : Half) (b : Byte) (s : State) : Host.Outcome State Fault Refusal :=
  if s.params.txPayloadMax ≤ i.toNat then .next (s.emit [.txRangeError]) else storeTx i.toNat b s

/-- TX_SEND: send one frame built from the staged payload (R192). -/
def execTxSend (a c : Byte) (len : Half) (s : State) : Host.Outcome State Fault Refusal :=
  if s.params.txPayloadMax < len.toNat then .next (s.emit [.txLenError]) else sendFrame a c len.toNat s

/-- An idle tick: count it, and on the `ALIVE_PERIOD`-th send the alive ChainSync (R193, R196, R197). -/
def idleTick (s : State) : Host.Outcome State Fault Refusal :=
  let count := s.idleTicks + 1
  if count.toNat = s.params.alivePeriod then
    andThen (storeTx 0 s.params.aliveMarker { s with idleTicks := 0 }) fun t =>
      sendFrame t.devAddr t.params.cmdChainSync 1 t
  else .next { s with idleTicks := count }

/-- The drain loop from entry `k` on, `n` entries still to take: each is popped and its five bytes are stored
at `1 + 5k` (R193). -/
def drainLoop : (n k : Nat) → State → Host.Outcome State Fault Refusal
  | 0, _, s => .next s
  | n + 1, k, s =>
    andThen (popEntry s) fun r =>
      match r with
      | (none, _) => .fault .drainUnderflow
      | (some e, t) => andThen (storeTxRun (1 + 5 * k) (entryBytes e) t) (drainLoop n (k + 1))

/-- A drain tick: as many updates as fit the budget, in one DataUpdate frame (R193, R194). -/
def drainTick (s : State) : Host.Outcome State Fault Refusal :=
  let n := min (qCount s) (updMax s.params)
  andThen (storeTx 0 (BitVec.ofNat 8 n) { s with idleTicks := 0 }) fun t =>
    andThen (drainLoop n 0 t) fun u => sendFrame u.devAddr u.params.cmdDataUpdate (1 + 5 * n) u

/-- FRAME_TICK: an alive ChainSync, a DataUpdate, or nothing (R193). -/
def execFrameTick (s : State) : Host.Outcome State Fault Refusal :=
  if qEmpty s then idleTick s else drainTick s

end Sys2Proof.Machine
end

