-- ==== Sys2Proof/Machine/Dispatch.lean ====
section
/-! DEFINITION. One meaning for each instruction. -/

namespace Sys2Proof.Machine

def exec (i : Instr) (s : State) : Host.Outcome State Fault Refusal :=
  match i with
  | .rxByte b => Sys2Proof.Machine.execRxByte b s
  | .qPush id v => Sys2Proof.Machine.execQPush id v s
  | .qPop => Sys2Proof.Machine.execQPop s
  | .qClear => Sys2Proof.Machine.execQClear s
  | .frameTick => Sys2Proof.Machine.execFrameTick s
  | .setAddr a f => Sys2Proof.Machine.execSetAddr a f s
  | .txbWr k b => Sys2Proof.Machine.execTxbWr k b s
  | .txSend a c len => Sys2Proof.Machine.execTxSend a c len s

end Sys2Proof.Machine
end

