-- ==== Sys2Proof/Machine/Port.lean ====
section
/-! DEFINITION. The command port, the reset input and the event interface (spec/30_encoding.md R80,
spec/60_exceptions.md R232, spec/70_reset_and_hazards.md R260, R261, R271). -/

namespace Sys2Proof.Machine

/-- The command port's ready signal: every event of the current operation has been taken (R271). -/
def portReady (s : State) : Bool := s.untaken.isEmpty

/-- The event offered on the event interface, held until it is taken (R232). -/
def offeredEvent (s : State) : Option Event := s.untaken.head?

/-- Perform one presented word: the operation it decodes to, or the illegal operation (R82, R83). -/
def performWord (w : OpWord) (s : State) : Host.Outcome State Fault Refusal :=
  match decodeWord w with
  | .operation i => exec i s
  | .illegal _ => illegalOperation w s

/-- The port is ready and the head of what is presented is `p`. Reset wins over an operation in the same cycle,
which is then not performed (R261). -/
def acceptInput (p : PortInput) (s : State) : Host.Outcome State Fault Refusal :=
  match p with
  | .operation w => performWord w s
  | .reset => .next s.applyReset
  | .resetWithOperation _ => .next s.applyReset

/-- One step of the block and its interface. An untaken event comes first: until the integrator takes it, no
operation starts and no reset takes effect (R271, R261, log 3). With nothing presented the block keeps all
its state (spec/60_exceptions.md R241). -/
def portStep (s : State) : Host.Outcome State Fault Refusal :=
  if s.params.wellFormed then
    match s.untaken, s.port with
    | _ :: _, _ => .next s.takeOffered
    | [], [] => .next s
    | [], p :: rest => acceptInput p { s with port := rest }
  else .refused .invalidConfiguration

/-- Present the word `w` next, with the events of earlier operations taken (log 1). -/
def presentWord (s : State) (w : OpWord) : State :=
  { s with untaken := [], port := .operation w :: s.port }

end Sys2Proof.Machine
end

