-- ==== Sys2Proof/Machine/Step.lean ====
section
/-! DEFINITION. One step of the machine, and the host's placing of an operation word. -/

namespace Sys2Proof.Machine

/-- One step (Sys2Proof/Machine/Port.lean says what it is). -/
def step (s : State) : Host.Outcome State Fault Refusal := portStep s

/-- `s` with the word whose low `nbits` bits are `w` presented next, so that the next step performs it. The block
fetches nothing (spec/10_state.md R21): this stands for the integrator presenting the word (log 1). -/
def State.withFetchWord (s : State) (nbits w : Nat) : State :=
  presentWord s (BitVec.ofNat 48 (w % 2 ^ nbits))

end Sys2Proof.Machine
end

