-- ==== Sys2Proof/Machine/Assembler.lean ====
section
/-! DEFINITION. The assembly notation of spec/30_encoding.md R91 and the pseudo-operations of R92. -/

namespace Sys2Proof.Machine

/-- The word of a line whose operands fit their fields (R91). -/
def lineWord : AsmLine → OpWord
  | .rxb b => encode (.rxByte (BitVec.ofNat 8 b))
  | .qpush id v => encode (.qPush (BitVec.ofNat 8 id) (BitVec.ofNat 32 v))
  | .qpop => encode .qPop
  | .qclr => encode .qClear
  | .tick => encode .frameTick
  | .setaddr a s => encode (.setAddr (BitVec.ofNat 8 a) (s == 1))
  | .txbw i b => encode (.txbWr (BitVec.ofNat 16 i) (BitVec.ofNat 8 b))
  | .txsend a c l => encode (.txSend (BitVec.ofNat 8 a) (BitVec.ofNat 8 c) (BitVec.ofNat 16 l))
  | .w48 x => BitVec.ofNat 48 x

/-- The word of a line; none for an operand that does not fit its field (R91). -/
def assembleLine (l : AsmLine) : Option OpWord := if l.wellFormed then some (lineWord l) else none

/-- The lines `txbw i, p` for the payload bytes, from index `i` up. -/
def stageLines : Nat → List Nat → List AsmLine
  | _, [] => []
  | i, p :: ps => .txbw i p :: stageLines (i + 1) ps

/-- The expansion of a source line (R92). -/
def expandSource : AsmSource → List AsmLine
  | .line l => [l]
  | .feed bytes => bytes.map .rxb
  | .sendframe a c payload => stageLines 0 payload ++ [.txsend a c payload.length]
  | .unassign => [.setaddr 0 0]

/-- The words of several lines; none if one of them is an assembly error. -/
def assembleLines : List AsmLine → Option (List OpWord)
  | [] => some []
  | l :: ls =>
    match assembleLine l, assembleLines ls with
    | some w, some ws => some (w :: ws)
    | _, _ => none

/-- The words of a source line. -/
def assembleSource (src : AsmSource) : Option (List OpWord) := assembleLines (expandSource src)

/-! ### The text of a line (log 19) -/

/-- The pieces of a line's text. -/
inductive AsmToken where
  | word (cs : List Char)
  | comma | openBracket | closeBracket
deriving DecidableEq, Repr

/-- The word collected so far, if there is one. -/
def flushWord (acc : List Char) : List AsmToken := if acc.isEmpty then [] else [.word acc]

/-- The tokens of a text; `;` begins a comment (R91). -/
def asmTokens : (acc : List Char) → List Char → List AsmToken
  | acc, [] => flushWord acc
  | acc, c :: cs =>
    if c = ';' then flushWord acc
    else if c = ' ' ∨ c = '\t' then flushWord acc ++ asmTokens [] cs
    else if c = ',' then flushWord acc ++ .comma :: asmTokens [] cs
    else if c = '[' then flushWord acc ++ .openBracket :: asmTokens [] cs
    else if c = ']' then flushWord acc ++ .closeBracket :: asmTokens [] cs
    else asmTokens (acc ++ [c]) cs

/-- A digit's value, below 16. -/
def digitValue (c : Char) : Option Nat :=
  let n := c.toNat
  if 48 ≤ n ∧ n ≤ 57 then some (n - 48)
  else if 97 ≤ n ∧ n ≤ 102 then some (n - 87)
  else if 65 ≤ n ∧ n ≤ 70 then some (n - 55)
  else none

/-- The number that `cs` writes in base `base` after the digits of value `acc`. -/
def digitsValue (base : Nat) : (acc : Nat) → List Char → Option Nat
  | acc, [] => some acc
  | acc, c :: cs =>
    match digitValue c with
    | some d => if d < base then digitsValue base (acc * base + d) cs else none
    | none => none

/-- "Numbers are decimal or `0x` hexadecimal" (R91). -/
def numberValue : List Char → Option Nat
  | [] => none
  | ['0', 'x'] => none
  | '0' :: 'x' :: cs => digitsValue 16 0 cs
  | cs => digitsValue 10 0 cs

/-- Operands "separated by commas" (R91). -/
def operandList : List AsmToken → Option (List Nat)
  | [] => some []
  | [.word w] => (numberValue w).map fun n => [n]
  | .word w :: .comma :: t :: rest =>
    match numberValue w, operandList (t :: rest) with
    | some n, some ns => some (n :: ns)
    | _, _ => none
  | _ => none

/-- The operands of `sendframe a, c, [p0, ..., pL-1]` (R92). -/
def sendframeOperands : List AsmToken → Option AsmSource
  | .word a :: .comma :: .word c :: .comma :: .openBracket :: rest =>
    if rest.getLast? = some .closeBracket then
      match numberValue a, numberValue c, operandList rest.dropLast with
      | some a, some c, some ps => some (.sendframe a c ps)
      | _, _, _ => none
    else none
  | _ => none

/-- The operation that a mnemonic and its operand numbers write (R91, R92). -/
def operationOf (name : List Char) (ops : List Nat) : Option AsmSource :=
  if name = ['f', 'e', 'e', 'd'] then some (.feed ops)
  else
    match ops with
    | [] =>
      if name = ['q', 'p', 'o', 'p'] then some (.line .qpop)
      else if name = ['q', 'c', 'l', 'r'] then some (.line .qclr)
      else if name = ['t', 'i', 'c', 'k'] then some (.line .tick)
      else if name = ['u', 'n', 'a', 's', 's', 'i', 'g', 'n'] then some .unassign
      else none
    | [a] =>
      if name = ['r', 'x', 'b'] then some (.line (.rxb a))
      else if name = ['.', 'w', '4', '8'] then some (.line (.w48 a))
      else none
    | [a, b] =>
      if name = ['q', 'p', 'u', 's', 'h'] then some (.line (.qpush a b))
      else if name = ['s', 'e', 't', 'a', 'd', 'd', 'r'] then some (.line (.setaddr a b))
      else if name = ['t', 'x', 'b', 'w'] then some (.line (.txbw a b))
      else none
    | [a, b, c] => if name = ['t', 'x', 's', 'e', 'n', 'd'] then some (.line (.txsend a b c)) else none
    | _ => none

/-- The source lines a text holds: none of them if it is blank or a comment, one otherwise; none if it is not in
the notation of R91 and R92. -/
def parseText (text : List Char) : Option (List AsmSource) :=
  match asmTokens [] text with
  | [] => some []
  | .word name :: rest =>
    if name = ['s', 'e', 'n', 'd', 'f', 'r', 'a', 'm', 'e'] then (sendframeOperands rest).map fun x => [x]
    else
      match operandList rest with
      | some ops => (operationOf name ops).map fun x => [x]
      | none => none
  | _ => none

/-- The words of a source text (R91, R92); none on an assembly error. -/
def assembleText (text : List Char) : Option (List OpWord) :=
  match parseText text with
  | some srcs => assembleLines (srcs.flatMap expandSource)
  | none => none

end Sys2Proof.Machine
end

