-- ==== Sys2Proof/Machine/Events.lean ====
section
/-! DEFINITION. The result codes and classes of spec/60_exceptions.md R230, and what each receiver sees of `OUT`
(spec/10_state.md R36). -/

namespace Sys2Proof.Machine

/-- The classes of R230. -/
inductive EventClass where
  | framingError | operationError | result
deriving DecidableEq, Repr

/-- The result code of an event (R230). -/
def eventCode : Event → BitVec 8
  | .crcError => 0x01
  | .lenError => 0x02
  | .budgetExhausted => 0x03
  | .illegalOp _ => 0x04
  | .txLenError => 0x05
  | .txRangeError => 0x06
  | .frameOk _ _ _ => 0x10
  | .txWrite _ => 0x11
  | .popped _ _ => 0x12
  | .popEmpty => 0x13

/-- The class of an event (R230). -/
def eventClass : Event → EventClass
  | .crcError => .framingError
  | .lenError => .framingError
  | .budgetExhausted => .framingError
  | .illegalOp _ => .operationError
  | .txLenError => .operationError
  | .txRangeError => .operationError
  | .frameOk _ _ _ => .result
  | .txWrite _ => .result
  | .popped _ _ => .result
  | .popEmpty => .result

/-- The result codes of one operation's events, in order; code 0x00 when it emitted nothing (R230). -/
def resultCodes (es : List Event) : List (BitVec 8) :=
  if es.isEmpty then [0x00] else es.map eventCode

/-- What the transport receives: the bytes of each `TxWrite`, in order (R36). -/
def transportWrites (log : List Event) : List (List Byte) :=
  log.filterMap fun e =>
    match e with
    | .txWrite bs => some bs
    | _ => none

/-- The bytes on the wire: the transport writes joined. -/
def wireBytes (log : List Event) : List Byte := (transportWrites log).flatten

/-- What the session receives: each accepted frame, in order (R36). -/
def sessionFrames (log : List Event) : List (Byte × Byte × List Byte) :=
  log.filterMap fun e =>
    match e with
    | .frameOk a c m => some (a, c, m)
    | _ => none

/-- What the caller receives as return codes: each error event, in order (R36). -/
def returnCodes (log : List Event) : List (BitVec 8) :=
  (log.filter fun e => eventClass e != .result).map eventCode

end Sys2Proof.Machine
end

