-- ==== Sys2Proof/Machine/Feed.lean ====
section
/-! DEFINITION. The pseudo-operation FEED (spec/40_receive.md R145). -/

namespace Sys2Proof.Machine

/-- The result of FEED: `feed_bytes(buffer) -> Ok | FramingError` (R145). -/
inductive FeedResult where
  | ok | framingError
deriving DecidableEq, Repr

/-- RX_BYTE on each byte in order; every byte is consumed, an error earlier in the buffer notwithstanding (R145). The
integrator takes each byte's events before it presents the next (spec/70_reset_and_hazards.md R271, log 18). -/
def feedBytes : List Byte → State → Host.Outcome State Fault Refusal
  | [], s => .next s
  | b :: bs, s => andThen (execRxByte b s.takeAll) fun t => feedBytes bs t.takeAll

/-- The result of a buffer whose RX_BYTEs emitted `es`: a framing error if any of them is one (R145). -/
def feedResultOf (es : List Event) : FeedResult :=
  if es.any fun e => eventClass e == .framingError then .framingError else .ok

/-- `feed b0, ..., bk`: the state after it and its result (R145). -/
def feed (bytes : List Byte) (s : State) : Host.Outcome (State × FeedResult) Fault Refusal :=
  andThen (feedBytes bytes s) fun t => .next (t, feedResultOf (newEvents s t))

end Sys2Proof.Machine
end

