-- ==== Sys2Proof/Safety.lean ====
section
/-! DEFINITION. The notions that claims about the machine are stated in: the abstract queue (spec/10_state.md R32),
the invariant of every run from a valid configuration, the running CRC's invariant (spec/40_receive.md R128), and a
safe step. -/

namespace Sys2Proof.Machine

/-- The abstract queue `Q = [Slot[(S.q_tail + k) mod N] for k in 0 .. q_count-1]`, oldest first (R32). -/
def absQueue (s : State) : List Entry :=
  (List.range (qCount s)).map fun k => slotEntry s ((s.qTail.toNat + k) % ringSize s.params)

/-- The bytes `0 .. n-1` of `RxBuf` have been written since reset. -/
abbrev rxStored (s : State) (n : Nat) : Prop := ∀ i, i < n → (Store.read s.rxBuf i).isSome = true

/-- What holds in every state of a run from a valid configuration. -/
structure StateInv (s : State) : Prop where
  /-- The configuration is one R5 allows. -/
  params : s.params.wellFormed = true
  /-- Each memory is in its canonical form, and lists no index outside it (spec/20_memory.md R60). -/
  rxBuf : Memory.wf s.rxBuf = true ∧ Store.within s.params.rxPayloadMax s.rxBuf = true
  txBuf : Memory.wf s.txBuf = true ∧ Store.within s.params.txPayloadMax s.txBuf = true
  slots : Store.wf s.slots = true ∧ Store.within (ringSize s.params) s.slots = true
  /-- The range of `S.byte_count` (R29). -/
  byteCount : s.byteCount.toNat < s.params.syncBudget
  /-- The range of `S.idle_ticks` (R35). -/
  idleTicks : s.idleTicks.toNat < s.params.alivePeriod
  /-- The ranges of the ring pointers (R31). -/
  qHead : s.qHead.toNat < ringSize s.params
  qTail : s.qTail.toNat < ringSize s.params
  /-- Every slot of the live queue has been written since reset (U2). -/
  live : ∀ k, k < qCount s → (Store.read s.slots ((s.qTail.toNat + k) % ringSize s.params)).isSome = true
  /-- While the high length byte is awaited, the length register holds the low byte (R125). -/
  lengthHigh : s.rxState = .readLengthHigh → s.rxLen.toNat < 256
  /-- Inside a payload, some bytes are still to come and the whole payload fits (R126, R127). -/
  payload : s.rxState = .readPayload →
    s.rxIdx.toNat < s.rxLen.toNat ∧ s.rxLen.toNat ≤ s.params.rxPayloadMax ∧ rxStored s s.rxIdx.toNat
  /-- At the CRC byte, the whole payload has been stored (R126, R127). -/
  crc : s.rxState = .readCrc →
    s.rxIdx = s.rxLen ∧ s.rxLen.toNat ≤ s.params.rxPayloadMax ∧ rxStored s s.rxLen.toNat
  /-- The untaken events are the last of `OUT`, and one operation emits at most two (R232, R133). -/
  untaken : s.untaken.length ≤ 2 ∧ ∃ taken, s.out = taken ++ s.untaken

/-- The running CRC register is the CRC of the frame's bytes so far, from the address byte on (R27, R128). -/
def CrcTracks (s : State) : Prop :=
  match s.rxState with
  | .idle => True
  | .readAddress => True
  | .readCommand => s.rxCrc = crcRun s.params s.params.crcInit [s.rxAddr]
  | .readLengthLow => s.rxCrc = crcRun s.params s.params.crcInit [s.rxAddr, s.rxCmd]
  | .readLengthHigh => s.rxCrc = crcRun s.params s.params.crcInit [s.rxAddr, s.rxCmd, lengthLow s.rxLen]
  | .readPayload =>
    s.rxCrc = crcRun s.params s.params.crcInit
      ([s.rxAddr, s.rxCmd, lengthLow s.rxLen, lengthHigh s.rxLen] ++ rxBufBytes s s.rxIdx.toNat)
  | .readCrc =>
    s.rxCrc = crcRun s.params s.params.crcInit
      ([s.rxAddr, s.rxCmd, lengthLow s.rxLen, lengthHigh s.rxLen] ++ rxBufBytes s s.rxLen.toNat)

/-- A safe step goes on, or stops only where the spec's own model stops: SendFrame at a `TxBuf` byte never written
since reset (spec/42_transmit.md R190, U1). -/
def SafeStep (s : State) : Prop :=
  (∃ t, step s = .next t) ∨ ∃ i, step s = .fault (.unwrittenTxByte i)

/-- The receive state: what RX_BYTE alone writes (spec/40_receive.md R121). -/
def SameReceive (s t : State) : Prop :=
  t.rxState = s.rxState ∧ t.rxAddr = s.rxAddr ∧ t.rxCmd = s.rxCmd ∧ t.rxLen = s.rxLen ∧ t.rxIdx = s.rxIdx ∧
    t.rxCrc = s.rxCrc ∧ t.rxBuf = s.rxBuf ∧ t.byteCount = s.byteCount

/-- The address state: what SET_ADDR alone writes (R140, spec/10_state.md R30). -/
def SameAddress (s t : State) : Prop := t.devAddr = s.devAddr ∧ t.addrAssigned = s.addrAssigned

/-- The queue state (spec/10_state.md R31). -/
def SameQueue (s t : State) : Prop := t.slots = s.slots ∧ t.qHead = s.qHead ∧ t.qTail = s.qTail

/-- The transmit state (spec/10_state.md R34, R35). -/
def SameTransmit (s t : State) : Prop := t.txBuf = s.txBuf ∧ t.idleTicks = s.idleTicks

/-- The integrator's side, the parameters and the count of resets: what no operation writes. -/
def SameSurround (s t : State) : Prop :=
  t.params = s.params ∧ t.port = s.port ∧ t.takes = s.takes ∧ t.resets = s.resets

/-! ### Runs of one operation, and what a byte leaves behind -/

/-- The state after a byte that validated no frame: `t` is what the decoder left and `es` what it emitted. The byte
counts, and the `SYNC_BUDGET`-th such byte sends the decoder to `Idle` and reports it (spec/40_receive.md R132, R133). -/
def afterByte (t : State) (es : List Event) : State :=
  if (t.byteCount + 1).toNat = t.params.syncBudget then
    { t with
      rxState := .idle
      byteCount := 0
      out := t.out ++ (es ++ [.budgetExhausted])
      untaken := t.untaken ++ (es ++ [.budgetExhausted]) }
  else { t with byteCount := t.byteCount + 1, out := t.out ++ es, untaken := t.untaken ++ es }

/-- The words `ws` performed in order, each one's events taken before the next (spec/70_reset_and_hazards.md R271). -/
def performAll : List OpWord → State → Host.Outcome State Fault Refusal
  | [], s => .next s
  | w :: ws, s => andThen (performWord w s.takeAll) (performAll ws)

/-- A Q_PUSH of each entry, in order. -/
def pushAll : List Entry → State → Host.Outcome State Fault Refusal
  | [], s => .next s
  | e :: es, s => andThen (execQPush e.id e.value s) (pushAll es)

/-- `n` Q_POPs, each one's event taken before the next. -/
def popTimes : Nat → State → Host.Outcome State Fault Refusal
  | 0, s => .next s
  | n + 1, s => andThen (execQPop s.takeAll) (popTimes n)

/-- `n` FRAME_TICKs, each one's events taken before the next. -/
def tickTimes : Nat → State → Host.Outcome State Fault Refusal
  | 0, s => .next s
  | n + 1, s => andThen (execFrameTick s.takeAll) (tickTimes n)

end Sys2Proof.Machine
end

