-- ==== Sys2Proof/Certificates/Slice0/Obligations.lean ====
section
/-! DEFINITION. The statements about the model. Each docstring names the rules of spec/ it formalises. -/

open Sys2Proof Sys2Proof.Machine

/-! ### Encodings -/

/-- R81, R82, R84: the decoder reads back every instruction the encoder writes, at every operand. -/
def Obligations.DecodeOfEncodeIsTheInstruction : Prop :=
  ∀ i : Instr, decodeWord (encode i) = .operation i

/-- R81, R84: a word that decodes to an instruction is that instruction's word: no bit is dropped. -/
def Obligations.EncodeOfDecodeIsTheWord : Prop :=
  ∀ (w : OpWord) (i : Instr), decodeWord w = .operation i → encode i = w

/-- R82: a word selects a row of the map, `(w AND mask) = match`, exactly when it decodes to that row's operation;
and it selects at most one row. -/
def Obligations.RowSelectsExactlyItsOperation : Prop :=
  ∀ w : OpWord, ∀ r ∈ opcodeRows,
    ((w &&& r.mask = r.pattern) ↔ ∃ i, decodeWord w = .operation i ∧ i.mnemonic = r.mnemonic) ∧
    (∀ r' ∈ opcodeRows, w &&& r.mask = r.pattern → w &&& r'.mask = r'.pattern → r = r')

/-- The legal words of spec/95_test_vectors.md section 6, and the illegal words V-ENC-1 to V-ENC-10 (R82, R83). -/
def Obligations.SpecWordsDecode : Prop :=
  decodeWord 0x000000000A71 = .operation (.rxByte 0xA7) ∧
  decodeWord 0x041200000012 = .operation (.qPush 1 0x41200000) ∧
  decodeWord 0x000000000003 = .operation .qPop ∧
  decodeWord 0x000000000004 = .operation .qClear ∧
  decodeWord 0x000000000005 = .operation .frameTick ∧
  decodeWord 0x000000001056 = .operation (.setAddr 5 true) ∧
  decodeWord 0x000000001BB7 = .operation (.txbWr 1 0xBB) ∧
  decodeWord 0x000000201008 = .operation (.txSend 0x00 0x01 0x0002) ∧
  ∀ w ∈ ([0x000000000000, 0x000000000009, 0x00000000000F, 0x000000001A71, 0x512000000012, 0x000000000013,
      0x800000000005, 0x000000002056, 0x000010000007, 0x001000000008] : List OpWord),
    ∀ i, decodeWord w ≠ .operation i

/-- R91: the words of a line whose operands fit their fields decode to the operation the line writes, and a line
with an operand that does not fit has no word. -/
def Obligations.AssembledLineDecodesOrIsAnError : Prop :=
  (∀ (b : Byte), (assembleLine (.rxb b.toNat)).map decodeWord = some (.operation (.rxByte b))) ∧
  (∀ (id : Byte) (v : Value32),
    (assembleLine (.qpush id.toNat v.toNat)).map decodeWord = some (.operation (.qPush id v))) ∧
  (∀ (a : Byte) (f : Bool),
    (assembleLine (.setaddr a.toNat f.toNat)).map decodeWord = some (.operation (.setAddr a f))) ∧
  (∀ (i : Half) (b : Byte),
    (assembleLine (.txbw i.toNat b.toNat)).map decodeWord = some (.operation (.txbWr i b))) ∧
  (∀ (a c : Byte) (l : Half),
    (assembleLine (.txsend a.toNat c.toNat l.toNat)).map decodeWord = some (.operation (.txSend a c l))) ∧
  (assembleLine .qpop).map decodeWord = some (.operation .qPop) ∧
  (assembleLine .qclr).map decodeWord = some (.operation .qClear) ∧
  (assembleLine .tick).map decodeWord = some (.operation .frameTick) ∧
  (∀ w : OpWord, assembleLine (.w48 w.toNat) = some w) ∧
  (∀ b, 256 ≤ b → assembleLine (.rxb b) = none) ∧
  (∀ id v, 256 ≤ id ∨ 2 ^ 32 ≤ v → assembleLine (.qpush id v) = none) ∧
  (∀ a f, 256 ≤ a ∨ 2 ≤ f → assembleLine (.setaddr a f) = none) ∧
  (∀ i b, 2 ^ 16 ≤ i ∨ 256 ≤ b → assembleLine (.txbw i b) = none) ∧
  (∀ a c l, 256 ≤ a ∨ 256 ≤ c ∨ 2 ^ 16 ≤ l → assembleLine (.txsend a c l) = none) ∧
  (∀ x, 2 ^ 48 ≤ x → assembleLine (.w48 x) = none)

/-! ### The step, the port, reset -/

/-- R80, R82: with no event untaken, a presented word that decodes to an instruction is performed exactly once: the
step is that instruction's meaning, on the state with the word taken off the port. The list of what is presented is the
model's (log 1). -/
def Obligations.StepRunsTheDecodedOperation : Prop :=
  ∀ (s : State) (w : OpWord) (rest : List PortInput) (i : Instr),
    s.params.wellFormed = true → s.untaken = [] → s.port = .operation w :: rest →
    decodeWord w = .operation i →
    step s = exec i { s with port := rest }

/-- R83: a word matches no row of the opcode map exactly when `OP` is 0x0 or 0x9 to 0xF, or a must-be-zero bit of its
format is 1; such a word emits `IllegalOp(w)` and changes no state. -/
def Obligations.IllegalWordIsReportedAndChangesNothing : Prop :=
  (∀ w : OpWord, (∀ r ∈ opcodeRows, w &&& r.mask ≠ r.pattern) ↔
    (w.toNat % 16 = 0 ∨ 9 ≤ w.toNat % 16 ∨
      ∃ r ∈ opcodeRows, w.toNat % 16 = r.opcode ∧
        ∃ k, r.format.usedBits ≤ k ∧ k < 48 ∧ w.getLsbD k = true)) ∧
  ∀ (s : State) (w : OpWord) (rest : List PortInput),
    s.params.wellFormed = true → s.untaken = [] → s.port = .operation w :: rest →
    (∀ r ∈ opcodeRows, w &&& r.mask ≠ r.pattern) →
    step s = .next { s with port := rest, out := s.out ++ [.illegalOp w], untaken := [.illegalOp w] }

/-- R271, R232, U12: while an event is untaken the step performs nothing; the offered event leaves when the
integrator takes it, and an integrator that takes none stalls the block. That this holds with reset presented is
deduced (log 3), and the count of events still to take is the model's choice (log 2). -/
def Obligations.UntakenEventStallsThePort : Prop :=
  ∀ (s : State) (e : Event) (es : List Event),
    s.params.wellFormed = true → s.untaken = e :: es →
    (∀ n, s.takes = n + 1 → step s = .next { s with untaken := es, takes := n }) ∧
    (s.takes = 0 → step s = .next s)

/-- R50, R260: reset sets the fields of the table, and no `TxBuf` byte is written after it (`TxWritten` is 0 for every
index: a byte is listed exactly when that bit is 1, log 7); the events already in `OUT` and the parameters stay. -/
def Obligations.ResetSetsTheTableAndKeepsTheLog : Prop :=
  ∀ (s : State) (rest : List PortInput),
    s.params.wellFormed = true → s.untaken = [] → s.port = .reset :: rest →
    ∃ t, step s = .next t ∧
      t.rxState = .idle ∧ t.rxAddr = 0x00 ∧ t.rxCmd = 0x00 ∧ t.rxLen = 0x0000 ∧ t.rxIdx = 0x0000 ∧
      t.rxCrc = s.params.crcInit ∧ t.byteCount = 0 ∧ t.devAddr = 0x00 ∧ t.addrAssigned = false ∧
      t.qHead = 0 ∧ t.qTail = 0 ∧ qCount t = 0 ∧ t.idleTicks = 0 ∧
      (∀ i, Store.read t.txBuf i = none) ∧
      t.out = s.out ∧ t.params = s.params

/-- R261: reset in the same cycle as an operation wins; the operation is not performed. Either way one input leaves the
list of what is presented (the model's choice, logs 1 and 4), nothing is untaken, and the integrator's count stays
(log 2). -/
def Obligations.ResetWinsOverAnOperation : Prop :=
  ∀ (s : State) (w : OpWord) (rest : List PortInput),
    s.params.wellFormed = true → s.untaken = [] →
    step { s with port := .resetWithOperation w :: rest } = step { s with port := .reset :: rest } ∧
    ∃ t, step { s with port := .reset :: rest } = .next t ∧
      t.port = rest ∧ t.untaken = [] ∧ t.takes = s.takes

/-- R241: with no operation presented the block is idle and keeps all state (that idle time is a step: log 21). -/
def Obligations.IdleBlockKeepsItsState : Prop :=
  ∀ s : State, s.params.wellFormed = true → s.untaken = [] → s.port = [] → step s = .next s

/-- R5, U10: a configuration outside the ranges is refused by the step (log 6), and one inside them never is. -/
def Obligations.OutOfRangeConfigurationIsRefused : Prop :=
  ∀ s : State,
    step s = .refused .invalidConfiguration ↔
      ¬(1 ≤ s.params.uqCapacity ∧ s.params.uqCapacity ≤ 255 ∧
        6 ≤ s.params.framePayloadBudget ∧ s.params.framePayloadBudget ≤ s.params.txPayloadMax ∧
        s.params.txPayloadMax ≤ 65535 ∧ s.params.rxPayloadMax ≤ 65535 ∧
        7 ≤ s.params.syncBudget ∧ s.params.syncBudget ≤ 4095 ∧
        1 ≤ s.params.alivePeriod ∧ s.params.alivePeriod ≤ 65535)

/-- R50, R33, R40, R41, V-RST-1: a block just reset has STATUS0 = 0x00100000 and STATUS1 = 0, in every valid
configuration. -/
def Obligations.StatusAfterReset : Prop :=
  ∀ p : Params, p.wellFormed = true →
    status0 (State.powerOn p) = 0x00100000 ∧ status1 (State.powerOn p) = 0x00000000

/-- The invariant holds right after reset, in every valid configuration; nothing untaken there is the model's value
(log 14). -/
def Obligations.InvariantHoldsAfterReset : Prop :=
  ∀ p : Params, p.wellFormed = true → StateInv (State.powerOn p) ∧ CrcTracks (State.powerOn p)

/-- R29, R31, R35, U2: every step keeps the invariant: the canonical form and bounds of the memories, the
ranges of the counters and pointers, and that the live queue and the received payload have been written. -/
def Obligations.StepKeepsTheInvariant : Prop :=
  ∀ s t : State, StateInv s → step s = .next t → StateInv t

/-- R27, R128: every step keeps the running CRC register equal to the CRC of the frame's bytes so far, so at the
CRC byte `S.rx_crc XOR CRC_XOROUT` is the CRC of the frame's address, command, length and payload. -/
def Obligations.StepKeepsTheRunningCrc : Prop :=
  ∀ s t : State, StateInv s → CrcTracks s → step s = .next t → CrcTracks t

/-- R230 with R190: in a state of the invariant a step goes on, or it performs a TX_SEND that reads a byte of
`TxBuf` never written since reset. -/
def Obligations.StepCompletesUnlessATransmitByteIsUnwritten : Prop :=
  ∀ s : State, StateInv s →
    (∃ t, step s = .next t) ∨
    ∃ (w : OpWord) (rest : List PortInput) (a c : Byte) (len : Half) (i : Nat),
      s.untaken = [] ∧ s.port = .operation w :: rest ∧ decodeWord w = .operation (.txSend a c len) ∧
      i < len.toNat ∧ Store.read s.txBuf i = none ∧ step s = .fault (.unwrittenTxByte i)

/-- R42, R263: no step changes a parameter. -/
def Obligations.NoStepChangesAParameter : Prop :=
  ∀ s t : State, step s = .next t → t.params = s.params

/-- R36, R67, R271: `OUT` only grows, by the events of one operation at a time, at most two, which then are all
offered; no operation starts while an event is untaken. The list of untaken events is the model's (log 14). -/
def Obligations.LogOnlyGrowsByOneOperation : Prop :=
  ∀ s t : State, step s = .next t →
    ∃ es, t.out = s.out ++ es ∧ es.length ≤ 2 ∧ (es ≠ [] → s.untaken = [] ∧ t.untaken = es)

/-- R22 (the written-by column): the receive state is written by RX_BYTE alone, the address state by SET_ADDR
alone, the queue by Q_PUSH, Q_POP, Q_CLEAR and FRAME_TICK, `TxBuf` by TXB_WR and FRAME_TICK, the idle-tick
counter by FRAME_TICK alone, and the parameters and the integrator's side by none. -/
def Obligations.EachFieldIsWrittenOnlyByItsOperations : Prop :=
  ∀ (i : Instr) (s t : State), exec i s = .next t →
    ((∀ b, i ≠ .rxByte b) → SameReceive s t) ∧
    ((∀ a f, i ≠ .setAddr a f) → SameAddress s t) ∧
    ((∀ id v, i ≠ .qPush id v) → i ≠ .qPop → i ≠ .qClear → i ≠ .frameTick → SameQueue s t) ∧
    ((∀ id v, i ≠ .qPush id v) → t.slots = s.slots) ∧
    ((∀ id v, i ≠ .qPush id v) → i ≠ .qClear → t.qHead = s.qHead) ∧
    (i ≠ .qPop → i ≠ .qClear → i ≠ .frameTick → t.qTail = s.qTail) ∧
    ((∀ k b, i ≠ .txbWr k b) → i ≠ .frameTick → t.txBuf = s.txBuf) ∧
    (i ≠ .frameTick → t.idleTicks = s.idleTicks) ∧
    SameSurround s t

/-- R230, R231: an operation that emits an OperationError emits nothing else and changes no state; one that emits
a FramingError leaves the decoder in `Idle`, and `BudgetExhausted` leaves the byte count at 0 (R234). -/
def Obligations.ErrorsAreRecoveredLocally : Prop :=
  ∀ (i : Instr) (s t : State) (e : Event), exec i s = .next t → e ∈ newEvents s t →
    (eventClass e = .operationError → t = { s with out := s.out ++ [e], untaken := s.untaken ++ [e] }) ∧
    (eventClass e = .framingError → t.rxState = .idle) ∧
    (e = .budgetExhausted → t.byteCount = 0)

/-- R230: the result codes. -/
def Obligations.ResultCodesOfTheEvents : Prop :=
  resultCodes [] = [0x00] ∧ eventCode .crcError = 0x01 ∧ eventCode .lenError = 0x02 ∧
  eventCode .budgetExhausted = 0x03 ∧ (∀ w, eventCode (.illegalOp w) = 0x04) ∧ eventCode .txLenError = 0x05 ∧
  eventCode .txRangeError = 0x06 ∧ (∀ a c m, eventCode (.frameOk a c m) = 0x10) ∧
  (∀ m, eventCode (.txWrite m) = 0x11) ∧ (∀ id v, eventCode (.popped id v) = 0x12) ∧
  eventCode .popEmpty = 0x13

/-- R40, R23: the fields of STATUS0, the decoder state in the encoding of R23. -/
def Obligations.StatusZeroFields : Prop :=
  ∀ s : State, s.params.wellFormed = true →
    (s.rxState = .idle → (status0 s).extractLsb' 0 3 = 0) ∧
    (s.rxState = .readAddress → (status0 s).extractLsb' 0 3 = 1) ∧
    (s.rxState = .readCommand → (status0 s).extractLsb' 0 3 = 2) ∧
    (s.rxState = .readLengthLow → (status0 s).extractLsb' 0 3 = 3) ∧
    (s.rxState = .readLengthHigh → (status0 s).extractLsb' 0 3 = 4) ∧
    (s.rxState = .readPayload → (status0 s).extractLsb' 0 3 = 5) ∧
    (s.rxState = .readCrc → (status0 s).extractLsb' 0 3 = 6) ∧
    (status0 s).getLsbD 3 = s.addrAssigned ∧
    (status0 s).extractLsb' 4 8 = s.devAddr ∧
    ((status0 s).extractLsb' 12 8).toNat = (s.qHead.toNat + ringSize s.params - s.qTail.toNat) % ringSize s.params ∧
    (status0 s).getLsbD 20 = decide (qCount s = 0) ∧
    (status0 s).getLsbD 21 = decide (qCount s = s.params.uqCapacity) ∧
    (status0 s).extractLsb' 22 10 = 0

/-- R41: the fields of STATUS1. -/
def Obligations.StatusOneFields : Prop :=
  ∀ s : State,
    (status1 s).extractLsb' 0 12 = s.byteCount ∧ (status1 s).extractLsb' 12 4 = 0 ∧
    (status1 s).extractLsb' 16 16 = s.idleTicks

/-! ### Receive -/

/-- R120 and V-CRC-1 to V-CRC-5, V-CRC-14: values of the CRC in the test configuration (log 16). -/
def Obligations.CrcValuesOfTheSpec : Prop :=
  crc8 Params.test [] = 0x00 ∧ crc8 Params.test [0x01] = 0x4D ∧
  crc8 Params.test [0x00, 0x07, 0x00, 0x00] = 0x12 ∧
  crc8 Params.test [0x31, 0x32, 0x33, 0x34, 0x35, 0x36, 0x37, 0x38, 0x39] = 0xC3 ∧
  crc8Step Params.test 0x00 0xFF = 0xA8 ∧
  [0x01, 0x02, 0x04, 0x08, 0x10, 0x20, 0x40, 0x80].map (crc8Step Params.test 0x00) =
    [0x4D, 0x9A, 0x79, 0xF2, 0xA9, 0x1F, 0x3E, 0x7C] ∧
  crc8 { Params.test with crcReflect := true } [0x00, 0x07, 0x00, 0x00] = 0x5B ∧
  crc8 { Params.test with crcReflect := true } [0x31, 0x32, 0x33, 0x34, 0x35, 0x36, 0x37, 0x38, 0x39] = 0x84

/-- R134: a change of any one covered byte, so any flipped bit of it, changes the CRC, for every length, initial
value, final XOR and bit order, and every generator with a constant term. -/
def Obligations.CrcDetectsAnyOneChangedByte : Prop :=
  ∀ (p : Params) (m n : List Byte) (b b' : Byte),
    p.crcPoly.getLsbD 0 = true → b ≠ b' → crc8 p (m ++ b :: n) ≠ crc8 p (m ++ b' :: n)

/-- R122, R132: RX_BYTE in `Idle`: the sync byte opens a frame, any other byte is discarded. -/
def Obligations.RxByteInIdle : Prop :=
  ∀ (s : State) (b : Byte), s.rxState = .idle →
    exec (.rxByte b) s =
      .next (afterByte { s with rxState := if b = s.params.syncByte then .readAddress else .idle } [])

/-- R123, R129, R132: RX_BYTE in `ReadAddress`: the address filter, and the CRC started from `CRC_INIT`. -/
def Obligations.RxByteInReadAddress : Prop :=
  ∀ (s : State) (b : Byte), s.rxState = .readAddress →
    ((b = s.params.bcastAddr ∨ s.addrAssigned = false ∨ b = s.devAddr) →
      exec (.rxByte b) s = .next (afterByte
        { s with rxAddr := b, rxCrc := crc8Step s.params s.params.crcInit b, rxState := .readCommand } [])) ∧
    (¬(b = s.params.bcastAddr ∨ s.addrAssigned = false ∨ b = s.devAddr) →
      exec (.rxByte b) s = .next (afterByte { s with rxState := .idle } []))

/-- R124, R125, R132: RX_BYTE in `ReadCommand` and in `ReadLengthLow`: any command is taken, and the low length
byte is zero-extended. -/
def Obligations.RxByteInReadCommandAndLengthLow : Prop :=
  ∀ (s : State) (b : Byte),
    (s.rxState = .readCommand →
      exec (.rxByte b) s = .next (afterByte
        { s with rxCmd := b, rxCrc := crc8Step s.params s.rxCrc b, rxState := .readLengthLow } [])) ∧
    (s.rxState = .readLengthLow →
      exec (.rxByte b) s = .next (afterByte
        { s with rxLen := BitVec.ofNat 16 b.toNat, rxCrc := crc8Step s.params s.rxCrc b,
                 rxState := .readLengthHigh } []))

/-- R126, R25, R132: RX_BYTE in `ReadLengthHigh`: the length is `b * 256` plus the low byte; a zero-length frame
goes to `ReadCrc`, an overlength frame is dropped with `LenError`, any other goes to `ReadPayload`. -/
def Obligations.RxByteInReadLengthHigh : Prop :=
  ∀ (s : State) (b : Byte), s.rxState = .readLengthHigh →
    let len := b.toNat * 256 + s.rxLen.toNat % 256
    let t := { s with rxLen := BitVec.ofNat 16 len, rxCrc := crc8Step s.params s.rxCrc b, rxIdx := 0 }
    (len = 0 → exec (.rxByte b) s = .next (afterByte { t with rxState := .readCrc } [])) ∧
    (0 < len → s.params.rxPayloadMax < len →
      exec (.rxByte b) s = .next (afterByte { t with rxState := .idle } [.lenError])) ∧
    (0 < len → len ≤ s.params.rxPayloadMax →
      exec (.rxByte b) s = .next (afterByte { t with rxState := .readPayload } []))

/-- R127, R132: RX_BYTE in `ReadPayload`: the byte is stored at `S.rx_idx`, every other byte of `RxBuf` reads as
before, and the last payload byte leads to `ReadCrc`. -/
def Obligations.RxByteInReadPayload : Prop :=
  ∀ (s : State) (b : Byte), StateInv s → s.rxState = .readPayload →
    ∃ m, exec (.rxByte b) s = .next (afterByte
        { s with rxBuf := m, rxIdx := s.rxIdx + 1, rxCrc := crc8Step s.params s.rxCrc b,
                 rxState := if s.rxIdx.toNat + 1 = s.rxLen.toNat then .readCrc else .readPayload } []) ∧
      Store.read m s.rxIdx.toNat = some b ∧
      ∀ i, i ≠ s.rxIdx.toNat → Store.read m i = Store.read s.rxBuf i

/-- R128, R131: RX_BYTE in `ReadCrc`: the right CRC byte emits `FrameOk` with the address, the command and the
`S.rx_len` payload bytes and sets the byte count to 0 (R132); any other emits `CrcError`. The decoder is in `Idle`
either way. That `S.rx_crc XOR CRC_XOROUT` is the CRC of the frame's address, command, length and payload is the spec's
own inference (R128: "[derived: from rules R123 to R127]"). -/
def Obligations.RxByteInReadCrc : Prop :=
  ∀ (s : State) (b : Byte), StateInv s → s.rxState = .readCrc →
    ∃ payload, payload.length = s.rxLen.toNat ∧
      (∀ i, i < s.rxLen.toNat → payload[i]? = Store.read s.rxBuf i) ∧
      (CrcTracks s → s.rxCrc ^^^ s.params.crcXorout = crc8 s.params (frameHead s.rxAddr s.rxCmd payload)) ∧
      (b = s.rxCrc ^^^ s.params.crcXorout →
        exec (.rxByte b) s = .next
          { s with rxState := .idle, byteCount := 0, out := s.out ++ [.frameOk s.rxAddr s.rxCmd payload],
                   untaken := s.untaken ++ [.frameOk s.rxAddr s.rxCmd payload] }) ∧
      (b ≠ s.rxCrc ^^^ s.params.crcXorout →
        exec (.rxByte b) s = .next (afterByte { s with rxState := .idle } [.crcError]))

/-- R133, R132: the events of one RX_BYTE: at most one decoder event, then `BudgetExhausted` exactly on the
`SYNC_BUDGET`-th byte without a validated frame; never `FrameOk` and `BudgetExhausted` together. -/
def Obligations.RxByteEventsAndCount : Prop :=
  ∀ (s t : State) (b : Byte), StateInv s → exec (.rxByte b) s = .next t →
    (∃ a c m, newEvents s t = [.frameOk a c m] ∧ t.byteCount = 0) ∨
    ∃ es, (es = [] ∨ es = [.crcError] ∨ es = [.lenError]) ∧
      (s.byteCount.toNat + 1 = s.params.syncBudget →
        newEvents s t = es ++ [.budgetExhausted] ∧ t.byteCount = 0 ∧ t.rxState = .idle) ∧
      (s.byteCount.toNat + 1 < s.params.syncBudget →
        newEvents s t = es ∧ t.byteCount.toNat = s.byteCount.toNat + 1)

/-- R132, V-RX-8: a decoder in `Idle` that is fed bytes other than the sync byte until the budget is used up
reports `BudgetExhausted` once, on the last of them, and starts the count again. Each byte's events are taken before the
next byte (log 18). -/
def Obligations.NoiseExhaustsTheBudget : Prop :=
  ∀ (s : State) (noise : List Byte) (b : Byte),
    s.params.wellFormed = true → s.rxState = .idle → (∀ x ∈ noise, x ≠ s.params.syncByte) → b ≠ s.params.syncByte →
    s.byteCount.toNat + noise.length + 1 = s.params.syncBudget →
    ∃ u t, feedBytes noise s = .next u ∧ newEvents s u = [] ∧
      feedBytes (noise ++ [b]) s = .next t ∧ newEvents s t = [.budgetExhausted] ∧
      t.rxState = .idle ∧ t.byteCount = 0

/-- R199, R86, R190: the two writes of one TX_SEND, fed byte by byte to a decoder in `Idle` whose filter accepts
the address and whose budget has room, give exactly one event, `FrameOk` of the address, the command and the
staged payload, on the last byte. Each byte's events are taken before the next byte (log 18). -/
def Obligations.LoopbackDeliversTheSentFrame : Prop :=
  ∀ (u v s : State) (a c : Byte) (len : Half),
    exec (.txSend a c len) u = .next v → len.toNat ≤ u.params.txPayloadMax →
    s.params = u.params → s.params.wellFormed = true → len.toNat ≤ s.params.rxPayloadMax →
    s.rxState = .idle → (a = s.params.bcastAddr ∨ s.addrAssigned = false ∨ a = s.devAddr) →
    s.byteCount.toNat + len.toNat + 5 < s.params.syncBudget →
    ∃ payload r t,
      payload.length = len.toNat ∧ (∀ i, i < len.toNat → Store.read u.txBuf i = payload[i]?) ∧
      feedBytes (wireBytes (newEvents u v)).dropLast s = .next r ∧ newEvents s r = [] ∧
      feedBytes (wireBytes (newEvents u v)) s = .next t ∧
      newEvents s t = [.frameOk a c payload] ∧ t.rxState = .idle ∧ t.byteCount = 0

/-- R134, R131: no false accept. A frame with one payload byte changed on the wire is not delivered: the decoder
emits `CrcError` and nothing else. The constant term of the generator is a hypothesis, as `CRC_POLY` is a parameter
(log 16); the run of bytes is log 18's. -/
def Obligations.CorruptedPayloadIsNotDelivered : Prop :=
  ∀ (s : State) (a c : Byte) (m n : List Byte) (x y : Byte),
    s.params.wellFormed = true → s.params.crcPoly.getLsbD 0 = true → s.rxState = .idle →
    (a = s.params.bcastAddr ∨ s.addrAssigned = false ∨ a = s.devAddr) →
    (m ++ x :: n).length ≤ s.params.rxPayloadMax → x ≠ y →
    s.byteCount.toNat + (m ++ x :: n).length + 6 < s.params.syncBudget →
    ∃ t, feedBytes (s.params.syncByte ::
          (frameHead a c (m ++ y :: n) ++ [crc8 s.params (frameHead a c (m ++ x :: n))])) s = .next t ∧
      newEvents s t = [.crcError] ∧ t.rxState = .idle

/-- R129, R123, R130: while an address is assigned, a frame to another address is dropped at its address byte: nothing is
emitted, and the decoder is scanning for a sync byte again (the run of two bytes: log 18). -/
def Obligations.ForeignFrameIsDroppedAtItsAddress : Prop :=
  ∀ (s : State) (a : Byte),
    s.params.wellFormed = true → s.rxState = .idle → s.addrAssigned = true → a ≠ s.devAddr → a ≠ s.params.bcastAddr →
    s.byteCount.toNat + 2 < s.params.syncBudget →
    ∃ t, feedBytes [s.params.syncByte, a] s = .next t ∧ newEvents s t = [] ∧ t.rxState = .idle ∧
      t.byteCount.toNat = s.byteCount.toNat + 2 ∧ t.rxAddr = s.rxAddr ∧ t.rxCrc = s.rxCrc

/-- R145: FEED performs RX_BYTE on each byte in order: with one byte more it performs RX_BYTE of that byte in the state
after the others, whatever they emitted, so a framing error does not stop the later bytes (each byte's events are taken
before the next byte: log 18). An empty buffer changes nothing. In a state of the invariant it completes, and it answers
FramingError exactly when one of its bytes emitted `CrcError`, `LenError` or `BudgetExhausted`. -/
def Obligations.FeedConsumesEveryByte : Prop :=
  (∀ s : State, feedBytes [] s = .next s) ∧
  (∀ (bytes : List Byte) (b : Byte) (s : State),
    feedBytes (bytes ++ [b]) s =
      andThen (feedBytes bytes s) fun u => andThen (exec (.rxByte b) u.takeAll) fun t => .next t.takeAll) ∧
  ∀ (bytes : List Byte) (s : State), StateInv s →
    ∃ t r, feed bytes s = .next (t, r) ∧ feedBytes bytes s = .next t ∧
      (r = .framingError ↔
        .crcError ∈ newEvents s t ∨ .lenError ∈ newEvents s t ∨ .budgetExhausted ∈ newEvents s t)

/-- R22 (the read-by column): what RX_BYTE does depends on the parameters, the receive state and the address state
alone: two blocks that agree on these, and on the number of the free values (log 8), agree on the decoder's events and on
the receive state after. -/
def Obligations.DecoderSeesOnlyReceiveAndAddressState : Prop :=
  ∀ (s s' t : State) (b : Byte),
    s'.params = s.params → s'.resets = s.resets → SameReceive s s' → SameAddress s s' →
    exec (.rxByte b) s = .next t →
    ∃ t', exec (.rxByte b) s' = .next t' ∧ SameReceive t t' ∧ newEvents s' t' = newEvents s t

/-- R140: SET_ADDR sets the two address fields, and nothing else. -/
def Obligations.SetAddrSetsTheAddressState : Prop :=
  ∀ (s : State) (a : Byte) (f : Bool),
    exec (.setAddr a f) s = .next { s with devAddr := a, addrAssigned := f }

/-- R129, R274: a SET_ADDR changes what RX_BYTE does only if that byte is an address byte: in every other state of the
decoder the two commute. -/
def Obligations.SetAddrSparesAFrameInProgress : Prop :=
  ∀ (s : State) (a b : Byte) (f : Bool), s.rxState ≠ .readAddress →
    andThen (exec (.setAddr a f) s) (exec (.rxByte b)) = andThen (exec (.rxByte b) s) (exec (.setAddr a f))

/-! ### Update queue -/

/-- R160, R33: Q_PUSH on a queue that is not full appends the entry, unchanged, as the newest; QEMPTY and QFULL follow
the new count; nothing is emitted and every other field is as before. On a full queue it is a no-op. -/
def Obligations.PushAppendsOrIsDropped : Prop :=
  ∀ (s : State) (id : Byte) (v : Value32), StateInv s →
    (qCount s < s.params.uqCapacity →
      ∃ m t, exec (.qPush id v) s = .next t ∧
        t = { s with slots := m, qHead := BitVec.ofNat 8 ((s.qHead.toNat + 1) % ringSize s.params) } ∧
        Store.read m s.qHead.toNat = some ⟨id, v⟩ ∧
        (∀ i, i ≠ s.qHead.toNat → Store.read m i = Store.read s.slots i) ∧
        absQueue t = absQueue s ++ [⟨id, v⟩] ∧ qCount t = qCount s + 1 ∧ qEmpty t = false ∧
        (qFull t = true ↔ qCount s + 1 = s.params.uqCapacity)) ∧
    (qCount s = s.params.uqCapacity → exec (.qPush id v) s = .next s)

/-- R161, R33: Q_POP on a queue that holds entries removes and reports the oldest; the rest stay in order; QFULL = 0 and
QEMPTY follows the new count; nothing else changes. On an empty queue it changes nothing and reports `PopEmpty`. -/
def Obligations.PopReportsTheOldestOrEmpty : Prop :=
  ∀ (s : State), StateInv s →
    (qCount s ≠ 0 →
      ∃ e t, exec .qPop s = .next t ∧ absQueue s = e :: absQueue t ∧
        t = { s with qTail := BitVec.ofNat 8 ((s.qTail.toNat + 1) % ringSize s.params),
                     out := s.out ++ [.popped e.id e.value], untaken := s.untaken ++ [.popped e.id e.value] } ∧
        qCount t = qCount s - 1 ∧ qFull t = false ∧ (qEmpty t = true ↔ qCount s = 1)) ∧
    (qCount s = 0 →
      exec .qPop s = .next { s with out := s.out ++ [.popEmpty], untaken := s.untaken ++ [.popEmpty] })

/-- R162: Q_CLEAR sets both pointers to 0 and leaves everything else, the slots included; the queue is then empty and not
full. -/
def Obligations.ClearEmptiesTheQueue : Prop :=
  ∀ (s : State), s.params.wellFormed = true →
    ∃ t, exec .qClear s = .next t ∧ t = { s with qHead := 0, qTail := 0 } ∧
      absQueue t = [] ∧ qEmpty t = true ∧ qFull t = false

/-- R32, R163 law 1: the count is never above the capacity, in any state, and it is the length of the abstract
queue. -/
def Obligations.CountStaysWithinTheCapacity : Prop :=
  ∀ s : State, qCount s ≤ s.params.uqCapacity ∧ (absQueue s).length = qCount s

/-- R163 law 2: entries pushed on an empty queue, more than it holds, leave exactly the first `UQ_CAPACITY`; popping then
yields them in push order, and after them `PopEmpty` (each pop's event taken before the next: log 18). -/
def Obligations.OverfilledQueueYieldsTheFirstInOrder : Prop :=
  ∀ (s : State) (es : List Entry), StateInv s → qCount s = 0 → s.params.uqCapacity ≤ es.length →
    ∃ t u, pushAll es s = .next t ∧ absQueue t = es.take s.params.uqCapacity ∧ newEvents s t = [] ∧
      popTimes (s.params.uqCapacity + 1) t = .next u ∧
      newEvents t u = (es.take s.params.uqCapacity).map (fun e => .popped e.id e.value) ++ [.popEmpty]

/-! ### Transmit -/

/-- R191: TXB_WR below the buffer's size writes that byte of `TxBuf` and nothing else; every other byte reads as before;
at or beyond the size it emits `TxRangeError` and writes nothing. -/
def Obligations.TxbWrWritesOneByteOrReports : Prop :=
  ∀ (s : State) (i : Half) (b : Byte),
    (i.toNat < s.params.txPayloadMax →
      ∃ m, exec (.txbWr i b) s = .next { s with txBuf := m } ∧ Store.read m i.toNat = some b ∧
        ∀ k, k ≠ i.toNat → Store.read m k = Store.read s.txBuf k) ∧
    (s.params.txPayloadMax ≤ i.toNat →
      exec (.txbWr i b) s = .next
        { s with out := s.out ++ [.txRangeError], untaken := s.untaken ++ [.txRangeError] })

/-- R192, R190: TX_SEND of a staged payload emits two writes, the sync byte alone and then the header, payload and CRC,
and changes no state; a payload byte never written since reset is the fault of R190, at the first such byte (log 7); a
length above the buffer's size emits `TxLenError` and changes no state. -/
def Obligations.TxSendSendsTheStagedPayload : Prop :=
  ∀ (s : State) (a c : Byte) (len : Half),
    (∀ payload : List Byte, len.toNat ≤ s.params.txPayloadMax → payload.length = len.toNat →
      (∀ i, i < len.toNat → Store.read s.txBuf i = payload[i]?) →
      let body := [a, c, BitVec.ofNat 8 (len.toNat % 256), BitVec.ofNat 8 (len.toNat / 256)] ++ payload
      let writes := [.txWrite [s.params.syncByte], .txWrite (body ++ [crc8 s.params body])]
      exec (.txSend a c len) s = .next { s with out := s.out ++ writes, untaken := s.untaken ++ writes }) ∧
    (∀ i, len.toNat ≤ s.params.txPayloadMax → i < len.toNat → Store.read s.txBuf i = none →
      (∀ k, k < i → Store.read s.txBuf k ≠ none) →
      exec (.txSend a c len) s = .fault (.unwrittenTxByte i)) ∧
    (s.params.txPayloadMax < len.toNat →
      exec (.txSend a c len) s = .next
        { s with out := s.out ++ [.txLenError], untaken := s.untaken ++ [.txLenError] })

/-- R193, R196, R197: an idle FRAME_TICK counts; the `ALIVE_PERIOD`-th sends the alive ChainSync, its one payload byte
`ALIVE_MARKER` through `TxBuf[0]`, from `S.dev_addr`, and the count starts again. -/
def Obligations.IdleTickCountsOrSendsAlive : Prop :=
  ∀ (s : State), s.params.wellFormed = true → qCount s = 0 → s.idleTicks.toNat < s.params.alivePeriod →
    (s.idleTicks.toNat + 1 < s.params.alivePeriod →
      exec .frameTick s = .next { s with idleTicks := s.idleTicks + 1 }) ∧
    (s.idleTicks.toNat + 1 = s.params.alivePeriod →
      let body := [s.devAddr, s.params.cmdChainSync, 0x01, 0x00, s.params.aliveMarker]
      let writes := [.txWrite [s.params.syncByte], .txWrite (body ++ [crc8 s.params body])]
      ∃ m, exec .frameTick s = .next
          { s with idleTicks := 0, txBuf := m, out := s.out ++ writes, untaken := s.untaken ++ writes } ∧
        Store.read m 0 = some s.params.aliveMarker ∧ ∀ k, k ≠ 0 → Store.read m k = Store.read s.txBuf k)

/-- R193, R194, R89, R62, R195, R198: a drain FRAME_TICK takes the `min(q_count, UPD_MAX)` oldest updates and sends them
in one DataUpdate frame from `S.dev_addr`. The payload is the count, then for each update its id and the four bytes of its
value, least significant first; it is within the budget. It overwrites `TxBuf[0 .. 5n]` and no other byte; the other
updates stay in order. -/
def Obligations.DrainTickSendsTheOldestUpdates : Prop :=
  ∀ (s : State), StateInv s → qCount s ≠ 0 →
    let n := min (qCount s) (min 255 ((s.params.framePayloadBudget - 1) / 5))
    ∃ payload : List Byte,
      1 ≤ n ∧ payload.length = 1 + 5 * n ∧ payload.length ≤ s.params.framePayloadBudget ∧
      payload[0]? = some (BitVec.ofNat 8 n) ∧
      (∀ k, k < n → ∃ e, (absQueue s)[k]? = some e ∧
        payload[1 + 5 * k]? = some e.id ∧
        payload[2 + 5 * k]? = some (e.value.extractLsb' 0 8) ∧
        payload[3 + 5 * k]? = some (e.value.extractLsb' 8 8) ∧
        payload[4 + 5 * k]? = some (e.value.extractLsb' 16 8) ∧
        payload[5 + 5 * k]? = some (e.value.extractLsb' 24 8)) ∧
      let body := [s.devAddr, s.params.cmdDataUpdate, BitVec.ofNat 8 ((1 + 5 * n) % 256),
        BitVec.ofNat 8 ((1 + 5 * n) / 256)] ++ payload
      let writes := [.txWrite [s.params.syncByte], .txWrite (body ++ [crc8 s.params body])]
      ∃ m t, exec .frameTick s = .next t ∧
        t = { s with idleTicks := 0, txBuf := m,
                     qTail := BitVec.ofNat 8 ((s.qTail.toNat + n) % ringSize s.params),
                     out := s.out ++ writes, untaken := s.untaken ++ writes } ∧
        (∀ i, i < 1 + 5 * n → Store.read m i = payload[i]?) ∧
        (∀ i, 1 + 5 * n ≤ i → Store.read m i = Store.read s.txBuf i) ∧
        absQueue t = (absQueue s).drop n ∧ qFull t = false

/-- R194: consecutive drain ticks with no pushes in between empty the queue `UPD_MAX` updates at a time, so a queue of
`q` entries is empty after exactly `ceil(q / UPD_MAX)` of them (each tick's events taken before the next: log 18). -/
def Obligations.DrainTicksEmptyTheQueue : Prop :=
  ∀ (s : State) (k : Nat), StateInv s → 1 ≤ updMax s.params ∧
    (k ≤ (qCount s + updMax s.params - 1) / updMax s.params →
      ∃ t, tickTimes k s = .next t ∧ absQueue t = (absQueue s).drop (k * updMax s.params) ∧
        (absQueue t = [] ↔ k = (qCount s + updMax s.params - 1) / updMax s.params))

/-- R196: from a count of 0 and an empty queue, the first `ALIVE_PERIOD - 1` ticks send nothing and the next sends one
alive frame (log 18). -/
def Obligations.AliveComesOnThePeriodThIdleTick : Prop :=
  ∀ (s : State), StateInv s → qCount s = 0 → s.idleTicks = 0 →
    (∀ k, k < s.params.alivePeriod →
      ∃ t, tickTimes k s = .next t ∧ newEvents s t = [] ∧ t.idleTicks.toNat = k) ∧
    ∃ t, tickTimes s.params.alivePeriod s = .next t ∧ t.idleTicks = 0 ∧
      newEvents s t = [.txWrite [s.params.syncByte],
        .txWrite (frameBody s.params s.devAddr s.params.cmdChainSync (alivePayload s.params))]

/-- R92, R191, R192: the words of `sendframe a, c, [p0, ..., pL-1]`, performed in order, send exactly that frame, whatever
`TxBuf` held before (each word's events taken before the next: log 18). -/
def Obligations.SendframeSendsItsPayload : Prop :=
  ∀ (s : State) (a c : Byte) (payload : List Byte),
    s.params.wellFormed = true → payload.length ≤ s.params.txPayloadMax →
    ∃ ws t, assembleSource (.sendframe a.toNat c.toNat (payload.map BitVec.toNat)) = some ws ∧
      performAll ws s = .next t ∧ transportWrites (newEvents s t) =
        [[s.params.syncByte], frameBody s.params a c payload] ∧ (newEvents s t).length = 2 ∧
      SameReceive s t ∧ SameAddress s t ∧ SameQueue s t ∧ t.idleTicks = s.idleTicks

/-- R64: SET_ADDR, TXB_WR within the buffer and Q_CLEAR are idempotent: performed twice in a row they do what they do
once. -/
def Obligations.IdempotentOperations : Prop :=
  (∀ (s : State) (a : Byte) (f : Bool),
    andThen (exec (.setAddr a f) s) (exec (.setAddr a f)) = exec (.setAddr a f) s) ∧
  (∀ (s : State) (i : Half) (b : Byte), i.toNat < s.params.txPayloadMax →
    andThen (exec (.txbWr i b) s) (exec (.txbWr i b)) = exec (.txbWr i b) s) ∧
  (∀ s : State, andThen (exec .qClear s) (exec .qClear) = exec .qClear s)
end

