-- ==== Sys2Proof/Laws/State.lean ====
section
/-! SUPPORT. Each field of State after each named update of it. -/

namespace Sys2Proof.Machine

variable (s : State) (es : List Event) (w : OpWord) (p : Params)

/-! ### `State.emit` -/

@[simp] theorem State.emit_params : (s.emit es).params = s.params := rfl
@[simp] theorem State.emit_rxState : (s.emit es).rxState = s.rxState := rfl
@[simp] theorem State.emit_rxAddr : (s.emit es).rxAddr = s.rxAddr := rfl
@[simp] theorem State.emit_rxCmd : (s.emit es).rxCmd = s.rxCmd := rfl
@[simp] theorem State.emit_rxLen : (s.emit es).rxLen = s.rxLen := rfl
@[simp] theorem State.emit_rxIdx : (s.emit es).rxIdx = s.rxIdx := rfl
@[simp] theorem State.emit_rxCrc : (s.emit es).rxCrc = s.rxCrc := rfl
@[simp] theorem State.emit_rxBuf : (s.emit es).rxBuf = s.rxBuf := rfl
@[simp] theorem State.emit_byteCount : (s.emit es).byteCount = s.byteCount := rfl
@[simp] theorem State.emit_devAddr : (s.emit es).devAddr = s.devAddr := rfl
@[simp] theorem State.emit_addrAssigned : (s.emit es).addrAssigned = s.addrAssigned := rfl
@[simp] theorem State.emit_slots : (s.emit es).slots = s.slots := rfl
@[simp] theorem State.emit_qHead : (s.emit es).qHead = s.qHead := rfl
@[simp] theorem State.emit_qTail : (s.emit es).qTail = s.qTail := rfl
@[simp] theorem State.emit_txBuf : (s.emit es).txBuf = s.txBuf := rfl
@[simp] theorem State.emit_idleTicks : (s.emit es).idleTicks = s.idleTicks := rfl
@[simp] theorem State.emit_out : (s.emit es).out = s.out ++ es := rfl
@[simp] theorem State.emit_untaken : (s.emit es).untaken = s.untaken ++ es := rfl
@[simp] theorem State.emit_port : (s.emit es).port = s.port := rfl
@[simp] theorem State.emit_takes : (s.emit es).takes = s.takes := rfl
@[simp] theorem State.emit_resets : (s.emit es).resets = s.resets := rfl

/-! ### `State.takeAll` -/

@[simp] theorem State.takeAll_params : s.takeAll.params = s.params := rfl
@[simp] theorem State.takeAll_rxState : s.takeAll.rxState = s.rxState := rfl
@[simp] theorem State.takeAll_rxAddr : s.takeAll.rxAddr = s.rxAddr := rfl
@[simp] theorem State.takeAll_rxCmd : s.takeAll.rxCmd = s.rxCmd := rfl
@[simp] theorem State.takeAll_rxLen : s.takeAll.rxLen = s.rxLen := rfl
@[simp] theorem State.takeAll_rxIdx : s.takeAll.rxIdx = s.rxIdx := rfl
@[simp] theorem State.takeAll_rxCrc : s.takeAll.rxCrc = s.rxCrc := rfl
@[simp] theorem State.takeAll_rxBuf : s.takeAll.rxBuf = s.rxBuf := rfl
@[simp] theorem State.takeAll_byteCount : s.takeAll.byteCount = s.byteCount := rfl
@[simp] theorem State.takeAll_devAddr : s.takeAll.devAddr = s.devAddr := rfl
@[simp] theorem State.takeAll_addrAssigned : s.takeAll.addrAssigned = s.addrAssigned := rfl
@[simp] theorem State.takeAll_slots : s.takeAll.slots = s.slots := rfl
@[simp] theorem State.takeAll_qHead : s.takeAll.qHead = s.qHead := rfl
@[simp] theorem State.takeAll_qTail : s.takeAll.qTail = s.qTail := rfl
@[simp] theorem State.takeAll_txBuf : s.takeAll.txBuf = s.txBuf := rfl
@[simp] theorem State.takeAll_idleTicks : s.takeAll.idleTicks = s.idleTicks := rfl
@[simp] theorem State.takeAll_out : s.takeAll.out = s.out := rfl
@[simp] theorem State.takeAll_untaken : s.takeAll.untaken = [] := rfl
@[simp] theorem State.takeAll_port : s.takeAll.port = s.port := rfl
@[simp] theorem State.takeAll_takes : s.takeAll.takes = s.takes := rfl
@[simp] theorem State.takeAll_resets : s.takeAll.resets = s.resets := rfl

/-! ### `State.applyReset` -/

@[simp] theorem State.applyReset_params : s.applyReset.params = s.params := rfl
@[simp] theorem State.applyReset_rxState : s.applyReset.rxState = .idle := rfl
@[simp] theorem State.applyReset_rxAddr : s.applyReset.rxAddr = 0x00 := rfl
@[simp] theorem State.applyReset_rxCmd : s.applyReset.rxCmd = 0x00 := rfl
@[simp] theorem State.applyReset_rxLen : s.applyReset.rxLen = 0x0000 := rfl
@[simp] theorem State.applyReset_rxIdx : s.applyReset.rxIdx = 0x0000 := rfl
@[simp] theorem State.applyReset_rxCrc : s.applyReset.rxCrc = s.params.crcInit := rfl
@[simp] theorem State.applyReset_rxBuf : s.applyReset.rxBuf = [] := rfl
@[simp] theorem State.applyReset_byteCount : s.applyReset.byteCount = 0 := rfl
@[simp] theorem State.applyReset_devAddr : s.applyReset.devAddr = 0x00 := rfl
@[simp] theorem State.applyReset_addrAssigned : s.applyReset.addrAssigned = false := rfl
@[simp] theorem State.applyReset_slots : s.applyReset.slots = [] := rfl
@[simp] theorem State.applyReset_qHead : s.applyReset.qHead = 0 := rfl
@[simp] theorem State.applyReset_qTail : s.applyReset.qTail = 0 := rfl
@[simp] theorem State.applyReset_txBuf : s.applyReset.txBuf = [] := rfl
@[simp] theorem State.applyReset_idleTicks : s.applyReset.idleTicks = 0 := rfl
@[simp] theorem State.applyReset_out : s.applyReset.out = s.out := rfl
@[simp] theorem State.applyReset_untaken : s.applyReset.untaken = s.untaken := rfl
@[simp] theorem State.applyReset_port : s.applyReset.port = s.port := rfl
@[simp] theorem State.applyReset_takes : s.applyReset.takes = s.takes := rfl
@[simp] theorem State.applyReset_resets : s.applyReset.resets = s.resets + 1 := rfl

/-! ### `presentWord` -/

@[simp] theorem presentWord_params : (presentWord s w).params = s.params := rfl
@[simp] theorem presentWord_rxState : (presentWord s w).rxState = s.rxState := rfl
@[simp] theorem presentWord_rxAddr : (presentWord s w).rxAddr = s.rxAddr := rfl
@[simp] theorem presentWord_rxCmd : (presentWord s w).rxCmd = s.rxCmd := rfl
@[simp] theorem presentWord_rxLen : (presentWord s w).rxLen = s.rxLen := rfl
@[simp] theorem presentWord_rxIdx : (presentWord s w).rxIdx = s.rxIdx := rfl
@[simp] theorem presentWord_rxCrc : (presentWord s w).rxCrc = s.rxCrc := rfl
@[simp] theorem presentWord_rxBuf : (presentWord s w).rxBuf = s.rxBuf := rfl
@[simp] theorem presentWord_byteCount : (presentWord s w).byteCount = s.byteCount := rfl
@[simp] theorem presentWord_devAddr : (presentWord s w).devAddr = s.devAddr := rfl
@[simp] theorem presentWord_addrAssigned : (presentWord s w).addrAssigned = s.addrAssigned := rfl
@[simp] theorem presentWord_slots : (presentWord s w).slots = s.slots := rfl
@[simp] theorem presentWord_qHead : (presentWord s w).qHead = s.qHead := rfl
@[simp] theorem presentWord_qTail : (presentWord s w).qTail = s.qTail := rfl
@[simp] theorem presentWord_txBuf : (presentWord s w).txBuf = s.txBuf := rfl
@[simp] theorem presentWord_idleTicks : (presentWord s w).idleTicks = s.idleTicks := rfl
@[simp] theorem presentWord_out : (presentWord s w).out = s.out := rfl
@[simp] theorem presentWord_untaken : (presentWord s w).untaken = [] := rfl
@[simp] theorem presentWord_port : (presentWord s w).port = .operation w :: s.port := rfl
@[simp] theorem presentWord_takes : (presentWord s w).takes = s.takes := rfl
@[simp] theorem presentWord_resets : (presentWord s w).resets = s.resets := rfl

/-! ### `State.powerOn` -/

@[simp] theorem State.powerOn_params : (State.powerOn p).params = p := rfl
@[simp] theorem State.powerOn_rxState : (State.powerOn p).rxState = .idle := rfl
@[simp] theorem State.powerOn_rxAddr : (State.powerOn p).rxAddr = 0x00 := rfl
@[simp] theorem State.powerOn_rxCmd : (State.powerOn p).rxCmd = 0x00 := rfl
@[simp] theorem State.powerOn_rxLen : (State.powerOn p).rxLen = 0x0000 := rfl
@[simp] theorem State.powerOn_rxIdx : (State.powerOn p).rxIdx = 0x0000 := rfl
@[simp] theorem State.powerOn_rxCrc : (State.powerOn p).rxCrc = p.crcInit := rfl
@[simp] theorem State.powerOn_rxBuf : (State.powerOn p).rxBuf = [] := rfl
@[simp] theorem State.powerOn_byteCount : (State.powerOn p).byteCount = 0 := rfl
@[simp] theorem State.powerOn_devAddr : (State.powerOn p).devAddr = 0x00 := rfl
@[simp] theorem State.powerOn_addrAssigned : (State.powerOn p).addrAssigned = false := rfl
@[simp] theorem State.powerOn_slots : (State.powerOn p).slots = [] := rfl
@[simp] theorem State.powerOn_qHead : (State.powerOn p).qHead = 0 := rfl
@[simp] theorem State.powerOn_qTail : (State.powerOn p).qTail = 0 := rfl
@[simp] theorem State.powerOn_txBuf : (State.powerOn p).txBuf = [] := rfl
@[simp] theorem State.powerOn_idleTicks : (State.powerOn p).idleTicks = 0 := rfl
@[simp] theorem State.powerOn_out : (State.powerOn p).out = [] := rfl
@[simp] theorem State.powerOn_untaken : (State.powerOn p).untaken = [] := rfl
@[simp] theorem State.powerOn_port : (State.powerOn p).port = [] := rfl
@[simp] theorem State.powerOn_takes : (State.powerOn p).takes = 0 := rfl
@[simp] theorem State.powerOn_resets : (State.powerOn p).resets = 0 := rfl

/-! ### `State.takeOffered` -/

/-- An event that is offered and taken. -/
theorem State.takeOffered_takes (n : Nat) (e : Event) (rest : List Event) (h : s.takes = n + 1)
    (hu : s.untaken = e :: rest) : s.takeOffered = { s with untaken := rest, takes := n } := by
  simp [State.takeOffered, h, hu]

/-- An integrator that will take no event: nothing changes. -/
theorem State.takeOffered_stalls (h : s.takes = 0) : s.takeOffered = s := by
  simp [State.takeOffered, h]

/-- Taking an event changes the integrator's side alone, or nothing. -/
theorem State.takeOffered_eq : ∃ u n, s.takeOffered = { s with untaken := u, takes := n } := by
  unfold State.takeOffered
  split
  · exact ⟨_, _, rfl⟩
  · exact ⟨s.untaken, s.takes, rfl⟩

end Sys2Proof.Machine
end

