-- ==== Sys2Proof/Laws/Store.lean ====
section
/-! SUPPORT. The laws of the indexed memories: a read after a write, the canonical form, and the bounds. -/

namespace Sys2Proof.Machine

variable {α : Type}

@[simp] theorem Store.read_nil (i : Nat) : Store.read ([] : Store α) i = none := rfl

/-- Reading the index just written gives the element written. -/
@[simp] theorem Store.read_write_self (m : Store α) (i : Nat) (v : α) :
    Store.read (Store.write m i v) i = some v := by
  induction m with
  | nil => simp [Store.write, Store.read]
  | cons c rest ih =>
    obtain ⟨j, u⟩ := c
    simp only [Store.write]
    split
    · simp [Store.read]
    · split
      · simp [Store.read]
      · rename_i h1 h2
        simp [Store.read, Ne.symm h2, ih]

/-- A write leaves every other index alone. -/
theorem Store.read_write_other (m : Store α) (i k : Nat) (v : α) (h : k ≠ i) :
    Store.read (Store.write m i v) k = Store.read m k := by
  induction m with
  | nil => simp [Store.write, Store.read, Ne.symm h]
  | cons c rest ih =>
    obtain ⟨j, u⟩ := c
    simp only [Store.write]
    split
    · simp [Store.read, Ne.symm h]
    · split
      · rename_i h1 h2
        subst h2
        simp [Store.read, Ne.symm h]
      · simp [Store.read, ih]

/-- Reading after a write, in one equation. -/
theorem Store.read_write (m : Store α) (i k : Nat) (v : α) :
    Store.read (Store.write m i v) k = if k = i then some v else Store.read m k := by
  split
  · subst_vars; simp
  · exact Store.read_write_other m i k v ‹_›

theorem Store.risesFrom_mono (m : Store α) (lo lo' : Nat) (h : lo' ≤ lo) (hm : Store.risesFrom lo m = true) :
    Store.risesFrom lo' m = true := by
  cases m with
  | nil => rfl
  | cons c rest =>
    obtain ⟨j, u⟩ := c
    simp only [Store.risesFrom, Bool.and_eq_true, decide_eq_true_eq] at *
    exact ⟨by omega, hm.2⟩

theorem Store.risesFrom_write (m : Store α) (lo i : Nat) (v : α) (hi : lo ≤ i)
    (hm : Store.risesFrom lo m = true) : Store.risesFrom lo (Store.write m i v) = true := by
  induction m generalizing lo with
  | nil => simp [Store.write, Store.risesFrom, hi]
  | cons c rest ih =>
    obtain ⟨j, u⟩ := c
    simp only [Store.risesFrom, Bool.and_eq_true, decide_eq_true_eq] at hm
    simp only [Store.write]
    split
    · simp [Store.risesFrom, hi, hm.2]; omega
    · split
      · subst_vars
        simp [Store.risesFrom, hi, hm.2]
      · simp only [Store.risesFrom, Bool.and_eq_true, decide_eq_true_eq]
        exact ⟨hm.1, ih (j + 1) (by omega) hm.2⟩

/-- A write keeps the canonical form. -/
theorem Store.wf_write (m : Store α) (i : Nat) (v : α) (hm : Store.wf m = true) :
    Store.wf (Store.write m i v) = true :=
  Store.risesFrom_write m 0 i v (Nat.zero_le i) hm

/-- A write below the memory's size keeps every listed index below it. -/
theorem Store.within_write (m : Store α) (size i : Nat) (v : α) (hi : i < size)
    (hm : Store.within size m = true) : Store.within size (Store.write m i v) = true := by
  induction m with
  | nil => simp [Store.write, Store.within, hi]
  | cons c rest ih =>
    obtain ⟨j, u⟩ := c
    simp only [Store.within, List.all_cons, Bool.and_eq_true, decide_eq_true_eq] at hm ih
    simp only [Store.write]
    split
    · simp [Store.within, hi, hm.1]; simpa using hm.2
    · split
      · simp [Store.within, hi]; simpa using hm.2
      · simp only [Store.within, List.all_cons, Bool.and_eq_true, decide_eq_true_eq]
        exact ⟨hm.1, ih hm.2⟩

/-- Writing one index twice is writing it once. -/
theorem Store.write_write (m : Store α) (i : Nat) (u v : α) :
    Store.write (Store.write m i u) i v = Store.write m i v := by
  induction m with
  | nil => simp [Store.write]
  | cons c rest ih =>
    obtain ⟨j, x⟩ := c
    simp only [Store.write]
    split
    · simp [Store.write]
    · split
      · simp [Store.write]
      · simp [Store.write, *]

/-- In a canonical memory, the elements an index below the first one reads are none. -/
theorem Store.read_below (m : Store α) (lo i : Nat) (h : i < lo) (hm : Store.risesFrom lo m = true) :
    Store.read m i = none := by
  induction m generalizing lo with
  | nil => rfl
  | cons c rest ih =>
    obtain ⟨j, u⟩ := c
    simp only [Store.risesFrom, Bool.and_eq_true, decide_eq_true_eq] at hm
    have hj : j ≠ i := by omega
    simp only [Store.read, hj, if_false]
    exact ih (j + 1) (by omega) hm.2

theorem Store.ext_from (m m' : Store α) (lo : Nat) (hm : Store.risesFrom lo m = true)
    (hm' : Store.risesFrom lo m' = true) (h : ∀ i, Store.read m i = Store.read m' i) : m = m' := by
  induction m generalizing m' lo with
  | nil =>
    cases m' with
    | nil => rfl
    | cons c' rest' =>
      have := h c'.1
      simp [Store.read] at this
  | cons c rest ih =>
    obtain ⟨j, u⟩ := c
    simp only [Store.risesFrom, Bool.and_eq_true, decide_eq_true_eq] at hm
    cases m' with
    | nil =>
      have := h j
      simp [Store.read] at this
    | cons c' rest' =>
      obtain ⟨j', u'⟩ := c'
      simp only [Store.risesFrom, Bool.and_eq_true, decide_eq_true_eq] at hm'
      have hjj : j = j' := by
        rcases Nat.lt_trichotomy j j' with hlt | heq | hgt
        · have h1 := h j
          rw [show Store.read ((j', u') :: rest') j = none from
            Store.read_below _ j' j hlt (by simp [Store.risesFrom, hm'.2])] at h1
          simp [Store.read] at h1
        · exact heq
        · have h1 := h j'
          rw [show Store.read ((j, u) :: rest) j' = none from
            Store.read_below _ j j' hgt (by simp [Store.risesFrom, hm.2])] at h1
          simp [Store.read] at h1
      subst hjj
      have hu : u = u' := by simpa [Store.read] using h j
      subst hu
      congr 1
      refine ih rest' (j + 1) hm.2 hm'.2 fun i => ?_
      by_cases hi : i = j
      · subst hi
        rw [Store.read_below rest (i + 1) i (by omega) hm.2, Store.read_below rest' (i + 1) i (by omega) hm'.2]
      · simpa [Store.read, Ne.symm hi] using h i

/-- Equal memories are equal data: two canonical memories that read alike are the same list. -/
theorem Store.ext (m m' : Store α) (hm : Store.wf m = true) (hm' : Store.wf m' = true)
    (h : ∀ i, Store.read m i = Store.read m' i) : m = m' :=
  Store.ext_from m m' 0 hm hm' h

end Sys2Proof.Machine
end

