-- ==== Sys2Proof/Laws/Ops.lean ====
section
/-! SUPPORT. One lemma for each shared operation: everything it can do. A proof about an instruction cites these
and does not unfold the operation. -/

namespace Sys2Proof.Machine

/-! ### Sequencing -/

section Sequencing
variable {α β γ : Type}

@[simp] theorem andThen_next (a : α) (f : α → Host.Outcome β Fault Refusal) : andThen (.next a) f = f a := rfl

@[simp] theorem andThen_fault (r : Fault) (f : α → Host.Outcome β Fault Refusal) :
    andThen (.fault r) f = .fault r := rfl

@[simp] theorem andThen_refused (r : Refusal) (f : α → Host.Outcome β Fault Refusal) :
    andThen (.refused r) f = .refused r := rfl

/-- A sequence answers next exactly when its first part does and the rest then does. -/
theorem andThen_eq_next (o : Host.Outcome α Fault Refusal) (f : α → Host.Outcome β Fault Refusal) (b : β) :
    andThen o f = .next b ↔ ∃ a, o = .next a ∧ f a = .next b := by
  cases o <;> simp

theorem andThen_assoc (o : Host.Outcome α Fault Refusal) (f : α → Host.Outcome β Fault Refusal)
    (g : β → Host.Outcome γ Fault Refusal) :
    andThen (andThen o f) g = andThen o fun a => andThen (f a) g := by
  cases o <;> rfl

end Sequencing

/-! ### The internal memories -/

/-- A store to `RxBuf` answers next exactly inside it. -/
theorem storeRx_eq_next (i : Nat) (b : Byte) (s t : State) :
    storeRx i b s = .next t ↔ i < s.params.rxPayloadMax ∧ t = { s with rxBuf := Store.write s.rxBuf i b } := by
  unfold storeRx
  split <;> simp_all [eq_comm]

/-- A store to the ring answers next exactly inside it. -/
theorem storeSlot_eq_next (i : Nat) (e : Entry) (s t : State) :
    storeSlot i e s = .next t ↔ i < ringSize s.params ∧ t = { s with slots := Store.write s.slots i e } := by
  unfold storeSlot
  split <;> simp_all [eq_comm]

/-- A load from the ring answers next exactly inside it. -/
theorem loadSlot_eq_next (i : Nat) (s : State) (e : Entry) :
    loadSlot i s = .next e ↔ i < ringSize s.params ∧ e = slotEntry s i := by
  unfold loadSlot
  split <;> simp_all [eq_comm]

/-- A store to `TxBuf` answers next exactly inside it. -/
theorem storeTx_eq_next (i : Nat) (b : Byte) (s t : State) :
    storeTx i b s = .next t ↔ i < s.params.txPayloadMax ∧ t = { s with txBuf := Store.write s.txBuf i b } := by
  unfold storeTx
  split <;> simp_all [eq_comm]

/-- The memory after the bytes `bs` were written from index `i` up. -/
def Store.writeRun (m : Memory) : (i : Nat) → List Byte → Memory
  | _, [] => m
  | i, b :: bs => Store.writeRun (Store.write m i b) (i + 1) bs

/-- Reading after a run of writes: inside the run its byte, outside it the memory as before. -/
theorem Store.read_writeRun (m : Memory) (i k : Nat) (bs : List Byte) :
    Store.read (Store.writeRun m i bs) k =
      if i ≤ k ∧ k < i + bs.length then bs[k - i]? else Store.read m k := by
  induction bs generalizing m i with
  | nil =>
    simp [Store.writeRun]
  | cons b bs ih =>
    simp only [Store.writeRun, ih, Store.read_write, List.length_cons]
    by_cases hk : k = i
    · subst hk
      have h1 : ¬(k + 1 ≤ k ∧ k < k + 1 + bs.length) := by omega
      have h2 : k ≤ k ∧ k < k + (bs.length + 1) := by omega
      rw [if_neg h1, if_pos rfl, if_pos h2]
      simp
    · by_cases hin : i + 1 ≤ k ∧ k < i + 1 + bs.length
      · have h2 : i ≤ k ∧ k < i + (bs.length + 1) := by omega
        rw [if_pos hin, if_pos h2, show k - i = (k - (i + 1)) + 1 by omega]
        simp
      · have h2 : ¬(i ≤ k ∧ k < i + (bs.length + 1)) := by omega
        rw [if_neg hin, if_neg h2, if_neg hk]

theorem Store.wf_writeRun (m : Memory) (i : Nat) (bs : List Byte) (hm : Store.wf m = true) :
    Store.wf (Store.writeRun m i bs) = true := by
  induction bs generalizing m i with
  | nil => exact hm
  | cons b bs ih => exact ih _ _ (Store.wf_write m i b hm)

theorem Store.within_writeRun (m : Memory) (size i : Nat) (bs : List Byte) (hi : i + bs.length ≤ size)
    (hm : Store.within size m = true) : Store.within size (Store.writeRun m i bs) = true := by
  induction bs generalizing m i with
  | nil => exact hm
  | cons b bs ih =>
    simp only [List.length_cons] at hi
    exact ih _ _ (by omega) (Store.within_write m size i b (by omega) hm)

theorem Store.writeRun_append (m : Memory) (i : Nat) (bs cs : List Byte) :
    Store.writeRun m i (bs ++ cs) = Store.writeRun (Store.writeRun m i bs) (i + bs.length) cs := by
  induction bs generalizing m i with
  | nil => simp [Store.writeRun]
  | cons b bs ih => simp [Store.writeRun, ih, Nat.add_assoc, Nat.add_comm 1]

/-- A run of stores inside `TxBuf` writes its bytes and changes nothing else. -/
theorem storeTxRun_inside (i : Nat) (bs : List Byte) (s : State) (h : i + bs.length ≤ s.params.txPayloadMax) :
    storeTxRun i bs s = .next { s with txBuf := Store.writeRun s.txBuf i bs } := by
  induction bs generalizing i s with
  | nil => rfl
  | cons b bs ih =>
    simp only [List.length_cons] at h
    have h0 : storeTx i b s = .next { s with txBuf := Store.write s.txBuf i b } :=
      (storeTx_eq_next i b s _).2 ⟨by omega, rfl⟩
    rw [storeTxRun, h0, andThen_next, ih (i + 1) _ (by simp only; omega)]
    rfl

/-- A run of loads from `TxBuf` answers next exactly with the bytes there, each of them written. -/
theorem loadTxRun_eq_next (m : Memory) (i n : Nat) (bs : List Byte) :
    loadTxRun m i n = .next bs ↔ bs.length = n ∧ ∀ k, k < n → Store.read m (i + k) = bs[k]? := by
  induction n generalizing i bs with
  | zero => cases bs <;> simp [loadTxRun]
  | succ n ih =>
    rw [loadTxRun]
    cases hr : Store.read m i with
    | none =>
      simp only [reduceCtorEq, false_iff, not_and]
      intro hl h
      have h0 := h 0 (by omega)
      cases bs with
      | nil => simp at hl
      | cons b bs => simp [hr] at h0
    | some b =>
      simp only [andThen_eq_next, ih]
      constructor
      · rintro ⟨cs, ⟨hl, hk⟩, he⟩
        simp only [Host.Outcome.next.injEq] at he
        subst he
        refine ⟨by simp [hl], fun k hkn => ?_⟩
        cases k with
        | zero => simp [hr]
        | succ k =>
          have := hk k (by omega)
          rw [show i + 1 + k = i + (k + 1) by omega] at this
          simpa using this
      · rintro ⟨hl, hk⟩
        cases bs with
        | nil => simp at hl
        | cons b' cs =>
          have h0 := hk 0 (by omega)
          simp only [Nat.add_zero, hr, List.getElem?_cons_zero, Option.some.injEq] at h0
          subst h0
          refine ⟨cs, ⟨by simpa using hl, fun k hkn => ?_⟩, rfl⟩
          have := hk (k + 1) (by omega)
          rw [show i + (k + 1) = i + 1 + k by omega] at this
          simpa using this

/-- A run of loads that does not answer next faults at its first byte never written. -/
theorem loadTxRun_fault (m : Memory) (i n k : Nat) (hk : k < n) (hn : Store.read m (i + k) = none)
    (hb : ∀ j, j < k → Store.read m (i + j) ≠ none) : loadTxRun m i n = .fault (.unwrittenTxByte (i + k)) := by
  induction n generalizing i k with
  | zero => omega
  | succ n ih =>
    rw [loadTxRun]
    cases k with
    | zero => simp only [Nat.add_zero] at hn; simp [hn]
    | succ k =>
      have h0 := hb 0 (by omega)
      cases hr : Store.read m i with
      | none => exact absurd (by simpa using hr) h0
      | some b =>
        have := ih (i + 1) k (by omega) (by rw [show i + 1 + k = i + (k + 1) by omega]; exact hn)
          (fun j hj => by rw [show i + 1 + j = i + (j + 1) by omega]; exact hb (j + 1) (by omega))
        simp only [this, andThen_fault]
        congr 2; omega

/-- A run of loads answers next, or faults at a byte in its range that was never written. -/
theorem loadTxRun_cases (m : Memory) (i n : Nat) :
    (∃ bs, loadTxRun m i n = .next bs) ∨
      ∃ j, i ≤ j ∧ j < i + n ∧ Store.read m j = none ∧ loadTxRun m i n = .fault (.unwrittenTxByte j) := by
  induction n generalizing i with
  | zero => exact .inl ⟨[], rfl⟩
  | succ n ih =>
    rw [loadTxRun]
    cases hr : Store.read m i with
    | none => exact .inr ⟨i, le_refl _, by omega, hr, rfl⟩
    | some b =>
      rcases ih (i + 1) with ⟨bs, hbs⟩ | ⟨j, h1, h2, h3, h4⟩
      · exact .inl ⟨b :: bs, by simp [hbs]⟩
      · exact .inr ⟨j, by omega, by omega, h3, by simp [h4]⟩

/-! ### Events -/

@[simp] theorem newEvents_emit (s : State) (es : List Event) : newEvents s (s.emit es) = es := by
  simp [newEvents]

/-- The events of an operation that appended `es` to the log. -/
theorem newEvents_of_append (s t : State) (es : List Event) (h : t.out = s.out ++ es) : newEvents s t = es := by
  simp [newEvents, h]

/-! ### Transmit -/

/-- SendFrame of a staged payload: two transport writes and no change of state. -/
theorem sendFrame_staged (a c : Byte) (len : Nat) (s : State) (payload : List Byte)
    (hl : payload.length = len) (hr : ∀ k, k < len → Store.read s.txBuf k = payload[k]?) :
    sendFrame a c len s =
      .next (s.emit [.txWrite [s.params.syncByte], .txWrite (frameBody s.params a c payload)]) := by
  have h : loadTxRun s.txBuf 0 len = .next payload :=
    (loadTxRun_eq_next _ _ _ _).2 ⟨hl, fun k hk => by simpa using hr k hk⟩
  simp [sendFrame, h]

/-- Everything SendFrame can do: send the staged payload, or fault at a byte never written. -/
theorem sendFrame_cases (a c : Byte) (len : Nat) (s : State) :
    (∃ payload, payload.length = len ∧ (∀ k, k < len → Store.read s.txBuf k = payload[k]?) ∧
      sendFrame a c len s =
        .next (s.emit [.txWrite [s.params.syncByte], .txWrite (frameBody s.params a c payload)])) ∨
    ∃ j, j < len ∧ Store.read s.txBuf j = none ∧ sendFrame a c len s = .fault (.unwrittenTxByte j) := by
  rcases loadTxRun_cases s.txBuf 0 len with ⟨bs, hbs⟩ | ⟨j, _, h2, h3, h4⟩
  · obtain ⟨hl, hk⟩ := (loadTxRun_eq_next _ _ _ _).1 hbs
    have hk' : ∀ k, k < len → Store.read s.txBuf k = bs[k]? := fun k hkl => by simpa using hk k hkl
    exact .inl ⟨bs, hl, hk', sendFrame_staged a c len s bs hl hk'⟩
  · exact .inr ⟨j, by omega, h3, by simp [sendFrame, h4]⟩

/-! ### Queue -/

/-- PopEntry on an empty queue. -/
theorem popEntry_empty (s : State) (h : qCount s = 0) : popEntry s = .next (none, s) := by
  simp [popEntry, qEmpty, h]

/-- PopEntry on a queue that holds an entry, its tail inside the ring. -/
theorem popEntry_holds (s : State) (h : qCount s ≠ 0) (ht : s.qTail.toNat < ringSize s.params) :
    popEntry s = .next (some (slotEntry s s.qTail.toNat), { s with qTail := ringNext s s.qTail }) := by
  have hl : loadSlot s.qTail.toNat s = .next (slotEntry s s.qTail.toNat) := (loadSlot_eq_next _ _ _).2 ⟨ht, rfl⟩
  simp [popEntry, qEmpty, h, hl]

/-- Everything PopEntry can do when it answers next. -/
theorem popEntry_eq_next (s : State) (r : Option Entry × State) (h : popEntry s = .next r) :
    (qCount s = 0 ∧ r = (none, s)) ∨
      (qCount s ≠ 0 ∧ s.qTail.toNat < ringSize s.params ∧
        r = (some (slotEntry s s.qTail.toNat), { s with qTail := ringNext s s.qTail })) := by
  by_cases hc : qCount s = 0
  · rw [popEntry_empty s hc] at h
    exact .inl ⟨hc, by simpa using h.symm⟩
  · refine .inr ⟨hc, ?_⟩
    simp only [popEntry, qEmpty, beq_iff_eq, hc, if_false, andThen_eq_next] at h
    obtain ⟨e, he, hr⟩ := h
    obtain ⟨ht, rfl⟩ := (loadSlot_eq_next _ _ _).1 he
    exact ⟨ht, by simpa using hr.symm⟩

/-! ### Receive -/

/-- Everything the guard can do: a validated frame restarts the count, the last byte of the budget reports and
restarts everything, any other byte counts. -/
theorem guardBytes_cases (r : RxResult) :
    (r.validated = true ∧ guardBytes r = ({ r.state with byteCount := 0 }, r.events)) ∨
    (r.validated = false ∧ (r.state.byteCount + 1).toNat = r.state.params.syncBudget ∧
      guardBytes r = ({ r.state with rxState := .idle, byteCount := 0 }, r.events ++ [.budgetExhausted])) ∨
    (r.validated = false ∧ (r.state.byteCount + 1).toNat ≠ r.state.params.syncBudget ∧
      guardBytes r = ({ r.state with byteCount := r.state.byteCount + 1 }, r.events)) := by
  cases hv : r.validated
  · by_cases hc : (r.state.byteCount + 1).toNat = r.state.params.syncBudget
    · refine .inr (.inl ⟨rfl, hc, ?_⟩)
      rw [guardBytes, hv, if_neg (by decide), if_pos hc]
    · refine .inr (.inr ⟨rfl, hc, ?_⟩)
      rw [guardBytes, hv, if_neg (by decide), if_neg hc]
  · refine .inl ⟨rfl, ?_⟩
    rw [guardBytes, hv, if_pos rfl]

/-- RX_BYTE of a byte that validates no frame, in the terms of `afterByte`. -/
theorem execRxByte_counts (b : Byte) (s t : State) (es : List Event)
    (h : decodeStep b s = .next ⟨t, es, false⟩) : execRxByte b s = .next (afterByte t es) := by
  rw [execRxByte, h, andThen_next]
  unfold afterByte
  rcases guardBytes_cases ⟨t, es, false⟩ with ⟨hv, -⟩ | ⟨-, hc, hg⟩ | ⟨-, hc, hg⟩
  · cases hv
  · rw [hg, if_pos hc]; rfl
  · rw [hg, if_neg hc]; rfl

/-- RX_BYTE of the byte that validates a frame. -/
theorem execRxByte_validates (b : Byte) (s t : State) (es : List Event)
    (h : decodeStep b s = .next ⟨t, es, true⟩) :
    execRxByte b s = .next (State.emit { t with byteCount := 0 } es) := by
  rw [execRxByte, h, andThen_next]
  rfl

/-- Everything RX_BYTE can do when it answers next. -/
theorem execRxByte_eq_next (b : Byte) (s u : State) (h : execRxByte b s = .next u) :
    (∃ t es, decodeStep b s = .next ⟨t, es, false⟩ ∧ u = afterByte t es) ∨
      ∃ t es, decodeStep b s = .next ⟨t, es, true⟩ ∧ u = State.emit { t with byteCount := 0 } es := by
  have h' := h
  rw [execRxByte, andThen_eq_next] at h
  obtain ⟨⟨t, es, v⟩, hd, -⟩ := h
  cases v
  · rw [execRxByte_counts b s t es hd] at h'
    exact .inl ⟨t, es, hd, by simpa using h'.symm⟩
  · rw [execRxByte_validates b s t es hd] at h'
    exact .inr ⟨t, es, hd, by simpa using h'.symm⟩

/-- Everything DecodeStep can do when it answers next: which receive fields it may change, and which events it emits. -/
theorem decodeStep_eq_next (b : Byte) (s : State) (r : RxResult) (h : decodeStep b s = .next r) :
    (∃ st a c l i k m, r.state =
        { s with rxState := st, rxAddr := a, rxCmd := c, rxLen := l, rxIdx := i, rxCrc := k, rxBuf := m }) ∧
      ((r.validated = false ∧ r.events = []) ∨
        (r.validated = false ∧ r.events = [.lenError] ∧ r.state.rxState = .idle) ∨
        (r.validated = false ∧ r.events = [.crcError] ∧ r.state.rxState = .idle) ∨
        (r.validated = true ∧ r.state.rxState = .idle ∧
          r.events = [.frameOk s.rxAddr s.rxCmd (rxBufBytes s s.rxLen.toNat)])) := by
  unfold decodeStep at h
  cases hs : s.rxState <;> simp only [hs] at h
  · simp only [Host.Outcome.next.injEq] at h
    subst h
    refine ⟨?_, .inl ⟨rfl, rfl⟩⟩
    unfold decodeIdle
    by_cases hb : b = s.params.syncByte
    · exact ⟨.readAddress, s.rxAddr, s.rxCmd, s.rxLen, s.rxIdx, s.rxCrc, s.rxBuf, by simp [hb]⟩
    · exact ⟨s.rxState, s.rxAddr, s.rxCmd, s.rxLen, s.rxIdx, s.rxCrc, s.rxBuf, by simp [hb]⟩
  · simp only [Host.Outcome.next.injEq] at h
    subst h
    unfold decodeAddress
    split
    · exact ⟨⟨_, _, _, _, _, _, _, rfl⟩, .inl ⟨rfl, rfl⟩⟩
    · exact ⟨⟨_, _, _, _, _, _, _, rfl⟩, .inl ⟨rfl, rfl⟩⟩
  · simp only [Host.Outcome.next.injEq] at h
    subst h
    exact ⟨⟨_, _, _, _, _, _, _, rfl⟩, .inl ⟨rfl, rfl⟩⟩
  · simp only [Host.Outcome.next.injEq] at h
    subst h
    exact ⟨⟨_, _, _, _, _, _, _, rfl⟩, .inl ⟨rfl, rfl⟩⟩
  · simp only [Host.Outcome.next.injEq] at h
    subst h
    simp only [decodeLengthHigh]
    split
    · exact ⟨⟨_, _, _, _, _, _, _, rfl⟩, .inl ⟨rfl, rfl⟩⟩
    · split
      · exact ⟨⟨_, _, _, _, _, _, _, rfl⟩, .inr (.inl ⟨rfl, rfl, rfl⟩)⟩
      · exact ⟨⟨_, _, _, _, _, _, _, rfl⟩, .inl ⟨rfl, rfl⟩⟩
  · simp only [decodePayload, andThen_eq_next, storeRx_eq_next] at h
    obtain ⟨t, ⟨-, rfl⟩, ht⟩ := h
    simp only [Host.Outcome.next.injEq] at ht
    subst ht
    exact ⟨⟨_, _, _, _, _, _, _, rfl⟩, .inl ⟨rfl, rfl⟩⟩
  · unfold decodeCrc at h
    split at h
    · split at h
      · simp only [Host.Outcome.next.injEq] at h
        subst h
        exact ⟨⟨_, _, _, _, _, _, _, rfl⟩, .inr (.inr (.inr ⟨rfl, rfl, rfl⟩))⟩
      · simp at h
    · simp only [Host.Outcome.next.injEq] at h
      subst h
      exact ⟨⟨_, _, _, _, _, _, _, rfl⟩, .inr (.inr (.inl ⟨rfl, rfl, rfl⟩))⟩

/-! ### The step -/

/-- Everything a step can do when it answers next: stay, hand over an event, apply a reset, or perform a word. -/
theorem step_eq_next (s t : State) (h : step s = .next t) :
    s.params.wellFormed = true ∧
      ((∃ e es, s.untaken = e :: es ∧ t = s.takeOffered) ∨
        (s.untaken = [] ∧ s.port = [] ∧ t = s) ∨
        (∃ rest, s.untaken = [] ∧ (s.port = .reset :: rest ∨ ∃ w, s.port = .resetWithOperation w :: rest) ∧
          t = State.applyReset { s with port := rest }) ∨
        ∃ w rest, s.untaken = [] ∧ s.port = .operation w :: rest ∧
          performWord w { s with port := rest } = .next t) := by
  simp only [step, portStep] at h
  split at h
  · rename_i hw
    refine ⟨hw, ?_⟩
    split at h
    · rename_i e es hu
      exact .inl ⟨e, es, hu, by simpa using h.symm⟩
    · rename_i hu hp
      exact .inr (.inl ⟨hu, hp, by simpa using h.symm⟩)
    · rename_i p rest hu hp
      cases p with
      | operation w => exact .inr (.inr (.inr ⟨w, rest, hu, hp, h⟩))
      | reset => exact .inr (.inr (.inl ⟨rest, hu, .inl hp, by simpa [acceptInput] using h.symm⟩))
      | resetWithOperation w =>
        exact .inr (.inr (.inl ⟨rest, hu, .inr ⟨w, hp⟩, by simpa [acceptInput] using h.symm⟩))
  · simp at h

/-- A step that performs a presented word. -/
theorem step_performs (s : State) (w : OpWord) (rest : List PortInput) (hw : s.params.wellFormed = true)
    (hu : s.untaken = []) (hp : s.port = .operation w :: rest) :
    step s = performWord w { s with port := rest } := by
  simp [step, portStep, hw, hu, hp, acceptInput]

end Sys2Proof.Machine
end

