-- ==== Sys2Proof/Laws/PerInstr.lean ====
section
/-! SUPPORT. The per-instruction family `WordForm`: what the encoder puts in an instruction's word. -/

namespace Sys2Proof.Laws.WordForm

open Sys2Proof

/-- The word of an instruction carries its row's opcode and has every must-be-zero bit of the row's format at 0
(spec/30_encoding.md R81, R82). -/
def Statement (i : Instr) : Prop :=
  ∃ r ∈ opcodeRows, r.mnemonic = i.mnemonic ∧ (opField (encode i)).toNat = r.opcode ∧
    mbzClear r.format (encode i) = true

theorem opField_toNat (w : OpWord) : (opField w).toNat = w.toNat % 16 := by
  simp [opField, BitVec.extractLsb'_toNat]

/-- A word given as a number of at most 48 bits has the form if the number does. -/
theorem of_number (i : Instr) (n : Nat) (r : OpcodeRow) (hr : r ∈ opcodeRows) (hm : r.mnemonic = i.mnemonic)
    (he : (encode i).toNat = n) (ho : n % 16 = r.opcode) (hz : n < 2 ^ r.format.usedBits) : Statement i :=
  ⟨r, hr, hm, by rw [opField_toNat, he, ho], by simp [mbzClear, he, hz]⟩

/-- The number a concatenation is. -/
theorem toNat_append_add {m n : Nat} (x : BitVec m) (y : BitVec n) : (x ++ y).toNat = x.toNat * 2 ^ n + y.toNat := by
  rw [BitVec.toNat_append, ← Nat.shiftLeft_add_eq_or_of_lt y.isLt, Nat.shiftLeft_eq]

theorem toNat_encode_rxByte (b : Byte) : (encode (.rxByte b)).toNat = b.toNat * 16 + 1 := by
  have := b.isLt
  simp only [encode, BitVec.toNat_setWidth, toNat_append_add, BitVec.toNat_ofNat]
  omega

theorem toNat_encode_qPush (id : Byte) (v : Value32) :
    (encode (.qPush id v)).toNat = (v.toNat * 256 + id.toNat) * 16 + 2 := by
  have := id.isLt
  have := v.isLt
  simp only [encode, BitVec.toNat_setWidth, toNat_append_add, BitVec.toNat_ofNat]
  omega

theorem toNat_encode_setAddr (a : Byte) (f : Bool) :
    (encode (.setAddr a f)).toNat = (f.toNat * 256 + a.toNat) * 16 + 6 := by
  have := a.isLt
  have := Bool.toNat_lt f
  simp only [encode, BitVec.toNat_setWidth, toNat_append_add, BitVec.toNat_ofNat, BitVec.toNat_ofBool]
  omega

theorem toNat_encode_txbWr (i : Half) (b : Byte) :
    (encode (.txbWr i b)).toNat = (i.toNat * 256 + b.toNat) * 16 + 7 := by
  have := i.isLt
  have := b.isLt
  simp only [encode, BitVec.toNat_setWidth, toNat_append_add, BitVec.toNat_ofNat]
  omega

theorem toNat_encode_txSend (a c : Byte) (len : Half) :
    (encode (.txSend a c len)).toNat = ((len.toNat * 256 + c.toNat) * 256 + a.toNat) * 16 + 8 := by
  have := a.isLt
  have := c.isLt
  have := len.isLt
  simp only [encode, BitVec.toNat_setWidth, toNat_append_add, BitVec.toNat_ofNat]
  omega

theorem rxByte (b : Byte) : Statement (.rxByte b) := by
  have := b.isLt
  refine of_number _ _ ⟨0x1, "RX_BYTE", .B, 0x000000000001, 0xFFFFFFFFF00F⟩ (by simp [opcodeRows]) rfl
    (toNat_encode_rxByte b) (by simp only; omega) (by simp only [Format.usedBits]; omega)

theorem qPush (id : Byte) (v : Value32) : Statement (.qPush id v) := by
  have := id.isLt
  have := v.isLt
  refine of_number _ _ ⟨0x2, "Q_PUSH", .P, 0x000000000002, 0xF0000000000F⟩ (by simp [opcodeRows]) rfl
    (toNat_encode_qPush id v) (by simp only; omega) (by simp only [Format.usedBits]; omega)

theorem qPop : Statement .qPop :=
  of_number _ 3 ⟨0x3, "Q_POP", .N, 0x000000000003, 0xFFFFFFFFFFFF⟩ (by simp [opcodeRows]) rfl rfl rfl (by decide)

theorem qClear : Statement .qClear :=
  of_number _ 4 ⟨0x4, "Q_CLEAR", .N, 0x000000000004, 0xFFFFFFFFFFFF⟩ (by simp [opcodeRows]) rfl rfl rfl (by decide)

theorem frameTick : Statement .frameTick :=
  of_number _ 5 ⟨0x5, "FRAME_TICK", .N, 0x000000000005, 0xFFFFFFFFFFFF⟩ (by simp [opcodeRows]) rfl rfl rfl (by decide)

theorem setAddr (a : Byte) (f : Bool) : Statement (.setAddr a f) := by
  have := a.isLt
  have := Bool.toNat_lt f
  refine of_number _ _ ⟨0x6, "SET_ADDR", .S, 0x000000000006, 0xFFFFFFFFE00F⟩ (by simp [opcodeRows]) rfl
    (toNat_encode_setAddr a f) (by simp only; omega) (by simp only [Format.usedBits]; omega)

theorem txbWr (i : Half) (b : Byte) : Statement (.txbWr i b) := by
  have := i.isLt
  have := b.isLt
  refine of_number _ _ ⟨0x7, "TXB_WR", .W, 0x000000000007, 0xFFFFF000000F⟩ (by simp [opcodeRows]) rfl
    (toNat_encode_txbWr i b) (by simp only; omega) (by simp only [Format.usedBits]; omega)

theorem txSend (a c : Byte) (len : Half) : Statement (.txSend a c len) := by
  have := a.isLt
  have := c.isLt
  have := len.isLt
  refine of_number _ _ ⟨0x8, "TX_SEND", .T, 0x000000000008, 0xFFF00000000F⟩ (by simp [opcodeRows]) rfl
    (toNat_encode_txSend a c len) (by simp only; omega) (by simp only [Format.usedBits]; omega)

end Sys2Proof.Laws.WordForm
end

