-- ==== Sys2Proof/Laws/Queue.lean ====
section
/-! SUPPORT. The ring and the abstract queue (spec/10_state.md R32, spec/41_queue.md R163): what a push, a pop and a
drain do to them. -/

namespace Sys2Proof.Machine

/-- The ranges of spec/00_scope.md R5, as facts. -/
theorem params_ranges (p : Params) (h : p.wellFormed = true) :
    1 ≤ p.uqCapacity ∧ p.uqCapacity ≤ 255 ∧ 6 ≤ p.framePayloadBudget ∧ p.framePayloadBudget ≤ p.txPayloadMax ∧
      p.txPayloadMax ≤ 65535 ∧ p.rxPayloadMax ≤ 65535 ∧ 7 ≤ p.syncBudget ∧ p.syncBudget ≤ 4095 ∧
      1 ≤ p.alivePeriod ∧ p.alivePeriod ≤ 65535 := by
  simp only [Params.wellFormed, Bool.and_eq_true, decide_eq_true_eq] at h
  omega

/-- `UPD_MAX` updates fit the budget, and there is at least one (spec/42_transmit.md R194). -/
theorem updMax_ranges (p : Params) (h : p.wellFormed = true) :
    1 ≤ updMax p ∧ updMax p ≤ 255 ∧ 1 + 5 * updMax p ≤ p.framePayloadBudget := by
  have := params_ranges p h
  unfold updMax
  omega

/-! ### Ring arithmetic -/

/-- The ring's successor, without the remainder. -/
theorem ring_succ (t N : Nat) (h : t < N) : (t + 1) % N = if t + 1 = N then 0 else t + 1 := by
  split
  · rename_i he; rw [he, Nat.mod_self]
  · exact Nat.mod_eq_of_lt (by omega)

/-- The ring's index, without the remainder. -/
theorem ring_index (t k N : Nat) (ht : t < N) (hk : k ≤ N) : (t + k) % N = if t + k < N then t + k else t + k - N := by
  split
  · exact Nat.mod_eq_of_lt ‹_›
  · rw [Nat.mod_eq_sub_mod (by omega)]
    exact Nat.mod_eq_of_lt (by omega)

/-- The ring's count, without the remainder. -/
theorem ring_count (h t N : Nat) (hh : h < N) (ht : t < N) :
    (h + N - t) % N = if t ≤ h then h - t else h + N - t := by
  split
  · rw [show h + N - t = (h - t) + N by omega, Nat.add_mod_right]
    exact Nat.mod_eq_of_lt (by omega)
  · exact Nat.mod_eq_of_lt (by omega)

theorem qCount_lt (s : State) : qCount s < ringSize s.params := Nat.mod_lt _ (Nat.succ_pos _)

/-- The count when both pointers are in the ring. -/
theorem qCount_eq (s : State) (hh : s.qHead.toNat < ringSize s.params) (ht : s.qTail.toNat < ringSize s.params) :
    qCount s = if s.qTail.toNat ≤ s.qHead.toNat then s.qHead.toNat - s.qTail.toNat
      else s.qHead.toNat + ringSize s.params - s.qTail.toNat :=
  ring_count _ _ _ hh ht

/-- A pointer moved on stays in the ring, and its byte holds it. -/
theorem ringNext_toNat (s : State) (p : Byte) (hc : s.params.uqCapacity ≤ 255) :
    (ringNext s p).toNat = (p.toNat + 1) % ringSize s.params := by
  have h : (p.toNat + 1) % ringSize s.params < ringSize s.params := Nat.mod_lt _ (Nat.succ_pos _)
  unfold ringSize at h
  simp only [ringNext, BitVec.toNat_ofNat]
  apply Nat.mod_eq_of_lt
  unfold ringSize at *
  omega

theorem length_absQueue (s : State) : (absQueue s).length = qCount s := by simp [absQueue]

/-- The `k`-th oldest entry. -/
theorem getElem?_absQueue (s : State) (k : Nat) :
    (absQueue s)[k]? =
      if k < qCount s then some (slotEntry s ((s.qTail.toNat + k) % ringSize s.params)) else none := by
  by_cases h : k < qCount s <;> simp [absQueue, h]

/-- The abstract queue depends on the queue's fields, the parameters and the count of resets alone. -/
theorem absQueue_congr (s t : State) (hp : t.params = s.params) (hs : t.slots = s.slots) (hh : t.qHead = s.qHead)
    (ht : t.qTail = s.qTail) (hr : t.resets = s.resets) : absQueue t = absQueue s := by
  simp [absQueue, qCount, slotEntry, hp, hs, hh, ht, hr]

/-- Popping lowers the count by one. -/
theorem qCount_pop (s : State) (hc : s.params.uqCapacity ≤ 255) (hh : s.qHead.toNat < ringSize s.params)
    (ht : s.qTail.toNat < ringSize s.params) (h : qCount s ≠ 0) :
    qCount { s with qTail := ringNext s s.qTail } + 1 = qCount s := by
  have hn := ringNext_toNat s s.qTail hc
  rw [ring_succ _ _ ht] at hn
  have hlt : (ringNext s s.qTail).toNat < ringSize s.params := by rw [hn]; split <;> omega
  have h1 := qCount_eq { s with qTail := ringNext s s.qTail } hh hlt
  have h2 := qCount_eq s hh ht
  simp only at h1
  rw [hn] at h1
  rw [h1]
  rw [h2] at h ⊢
  split <;> split at h1 <;> split at h <;> split <;> omega

/-- Popping takes the head of the abstract queue (R163 law 4). -/
theorem absQueue_pop (s : State) (hc : s.params.uqCapacity ≤ 255) (hh : s.qHead.toNat < ringSize s.params)
    (ht : s.qTail.toNat < ringSize s.params) (h : qCount s ≠ 0) :
    absQueue s = slotEntry s s.qTail.toNat :: absQueue { s with qTail := ringNext s s.qTail } := by
  have hq := qCount_pop s hc hh ht h
  have hlt := qCount_lt s
  apply List.ext_getElem?
  intro k
  cases k with
  | zero =>
    rw [getElem?_absQueue, if_pos (by omega)]
    simp [Nat.mod_eq_of_lt ht]
  | succ k =>
    rw [List.getElem?_cons_succ, getElem?_absQueue, getElem?_absQueue]
    have hiff : (k + 1 < qCount s) ↔ (k < qCount { s with qTail := ringNext s s.qTail }) := by omega
    by_cases hk : k + 1 < qCount s
    · rw [if_pos hk, if_pos (hiff.1 hk)]
      simp only [slotEntry, ringNext_toNat s s.qTail hc]
      rw [Nat.mod_add_mod, Nat.add_assoc, Nat.add_comm 1 k]
    · rw [if_neg hk, if_neg (fun h' => hk (hiff.2 h'))]

/-- The head slot is `q_count` after the tail. -/
theorem ring_head (s : State) (hh : s.qHead.toNat < ringSize s.params) (ht : s.qTail.toNat < ringSize s.params) :
    (s.qTail.toNat + qCount s) % ringSize s.params = s.qHead.toNat := by
  have hlt := qCount_lt s
  rw [ring_index _ _ _ ht (by omega)]
  have h := qCount_eq s hh ht
  split at h <;> rw [h] <;> split <;> omega

/-- Pushing on a queue that is not full raises the count by one. -/
theorem qCount_push (s : State) (m : Store Entry) (hc : s.params.uqCapacity ≤ 255)
    (hh : s.qHead.toNat < ringSize s.params) (ht : s.qTail.toNat < ringSize s.params)
    (h : qCount s ≠ s.params.uqCapacity) :
    qCount { s with slots := m, qHead := ringNext s s.qHead } = qCount s + 1 := by
  have hn := ringNext_toNat s s.qHead hc
  rw [ring_succ _ _ hh] at hn
  have hlt : (ringNext s s.qHead).toNat < ringSize s.params := by rw [hn]; split <;> omega
  have h1 := qCount_eq { s with slots := m, qHead := ringNext s s.qHead } hlt ht
  have h2 := qCount_eq s hh ht
  simp only at h1
  rw [hn] at h1
  rw [h1]
  rw [h2] at h ⊢
  have hN : ringSize s.params = s.params.uqCapacity + 1 := rfl
  split <;> split at h1 <;> split at h <;> split <;> omega

/-- Pushing on a queue that is not full appends to the abstract queue (R163 law 4). -/
theorem absQueue_push (s : State) (e : Entry) (hc : s.params.uqCapacity ≤ 255)
    (hh : s.qHead.toNat < ringSize s.params) (ht : s.qTail.toNat < ringSize s.params)
    (h : qCount s ≠ s.params.uqCapacity) :
    absQueue { s with slots := Store.write s.slots s.qHead.toNat e, qHead := ringNext s s.qHead } =
      absQueue s ++ [e] := by
  have hq := qCount_push s (Store.write s.slots s.qHead.toNat e) hc hh ht h
  have hlt := qCount_lt s
  have hhead := ring_head s hh ht
  have hN : ringSize s.params = s.params.uqCapacity + 1 := rfl
  apply List.ext_getElem?
  intro k
  rw [getElem?_absQueue, hq]
  rcases Nat.lt_trichotomy k (qCount s) with hk | hk | hk
  · rw [if_pos (by omega), List.getElem?_append_left (by rw [length_absQueue]; exact hk), getElem?_absQueue, if_pos hk]
    simp only [slotEntry, Option.some.injEq]
    rw [Store.read_write_other]
    rw [← hhead, ring_index _ _ _ ht (by omega), ring_index _ _ _ ht (by omega)]
    split <;> split <;> omega
  · subst hk
    rw [if_pos (by omega), List.getElem?_append_right (by rw [length_absQueue])]
    simp [length_absQueue, slotEntry, hhead]
  · rw [if_neg (by omega), List.getElem?_append_right (by rw [length_absQueue]; omega), length_absQueue]
    rw [List.getElem?_eq_none]
    simp; omega

/-! ### The drain loop -/

/-- The drain loop of a queue that holds `n` entries or more: the tail moves on by `n` and the `n` oldest entries'
bytes are in `TxBuf`, from index `1 + 5k` up; nothing else changes (spec/42_transmit.md R193). -/
theorem drainLoop_holds (n k : Nat) (s : State) (hc : s.params.uqCapacity ≤ 255)
    (hh : s.qHead.toNat < ringSize s.params) (ht : s.qTail.toNat < ringSize s.params) (hn : n ≤ qCount s)
    (hb : 1 + 5 * (k + n) ≤ s.params.txPayloadMax) :
    drainLoop n k s = .next { s with
      qTail := BitVec.ofNat 8 ((s.qTail.toNat + n) % ringSize s.params)
      txBuf := Store.writeRun s.txBuf (1 + 5 * k) (((absQueue s).take n).flatMap entryBytes) } := by
  induction n generalizing k s with
  | zero =>
    simp [drainLoop, Nat.mod_eq_of_lt ht, Store.writeRun]
  | succ n ih =>
    have hne : qCount s ≠ 0 := by omega
    have hlen : ∀ e : Entry, (entryBytes e).length = 5 := fun _ => rfl
    rw [drainLoop, popEntry_holds s hne ht]
    simp only [andThen_next]
    rw [storeTxRun_inside _ _ _ (by rw [hlen]; simp only; omega), andThen_next]
    have hq := qCount_pop s hc hh ht hne
    have hnt := ringNext_toNat s s.qTail hc
    have hltt : (ringNext s s.qTail).toNat < ringSize s.params := by
      rw [hnt]; exact Nat.mod_lt _ (Nat.succ_pos _)
    let u : State := { s with
      qTail := ringNext s s.qTail
      txBuf := Store.writeRun s.txBuf (1 + 5 * k) (entryBytes (slotEntry s s.qTail.toNat)) }
    have hu : qCount u = qCount { s with qTail := ringNext s s.qTail } := rfl
    have hau : absQueue u = absQueue { s with qTail := ringNext s s.qTail } := absQueue_congr _ _ rfl rfl rfl rfl rfl
    have := ih (k + 1) u hc hh hltt (by omega) (by simp only [u]; omega)
    rw [this, hau]
    have htail : ((ringNext s s.qTail).toNat + n) % ringSize s.params = (s.qTail.toNat + (n + 1)) % ringSize s.params := by
      rw [hnt, Nat.mod_add_mod, Nat.add_assoc, Nat.add_comm 1 n]
    simp only [u, htail, absQueue_pop s hc hh ht hne, List.take_succ_cons, List.flatMap_cons]
    rw [Store.writeRun_append, hlen, show 1 + 5 * (k + 1) = 1 + 5 * k + 5 by omega]

end Sys2Proof.Machine
end

