-- ==== Sys2Proof/Laws/Wire.lean ====
section
/-! SUPPORT. Byte order, lengths of the payloads, and what the two kinds of sending tick do (spec/42_transmit.md R193). -/

namespace Sys2Proof.Machine

/-! ### Byte order -/

theorem lengthLow_toNat (len : Half) : (lengthLow len).toNat = len.toNat % 256 := by
  simp [lengthLow, BitVec.extractLsb'_toNat]

theorem lengthHigh_toNat (len : Half) : (lengthHigh len).toNat = len.toNat / 256 := by
  have := len.isLt
  simp only [lengthHigh, BitVec.extractLsb'_toNat, Nat.shiftRight_eq_div_pow]
  omega

theorem lengthOf_toNat (hi lo : Byte) : (lengthOf hi lo).toNat = hi.toNat * 256 + lo.toNat := by
  have h := lo.isLt
  rw [lengthOf, BitVec.toNat_append, ← Nat.shiftLeft_add_eq_or_of_lt h, Nat.shiftLeft_eq]

/-- The length put together again from its two bytes. -/
@[simp] theorem lengthOf_bytes (len : Half) : lengthOf (lengthHigh len) (lengthLow len) = len := by
  apply BitVec.eq_of_toNat_eq
  rw [lengthOf_toNat, lengthHigh_toNat, lengthLow_toNat]
  omega

@[simp] theorem lengthLow_lengthOf (hi lo : Byte) : lengthLow (lengthOf hi lo) = lo := by
  apply BitVec.eq_of_toNat_eq
  have := lo.isLt
  rw [lengthLow_toNat, lengthOf_toNat]
  omega

@[simp] theorem lengthHigh_lengthOf (hi lo : Byte) : lengthHigh (lengthOf hi lo) = hi := by
  apply BitVec.eq_of_toNat_eq
  have := lo.isLt
  rw [lengthHigh_toNat, lengthOf_toNat]
  omega

@[simp] theorem lengthLow_setWidth (b : Byte) : lengthLow (b.setWidth 16) = b := by
  apply BitVec.eq_of_toNat_eq
  have := b.isLt
  rw [lengthLow_toNat]
  simp only [BitVec.toNat_setWidth]
  omega

/-! ### The CRC of a sequence -/

@[simp] theorem crcRun_nil (p : Params) (c : Byte) : crcRun p c [] = c := rfl

@[simp] theorem crcRun_cons (p : Params) (c b : Byte) (m : List Byte) :
    crcRun p c (b :: m) = crcRun p (crc8Step p c b) m := rfl

theorem crcRun_append (p : Params) (c : Byte) (m n : List Byte) :
    crcRun p c (m ++ n) = crcRun p (crcRun p c m) n := by
  simp [crcRun]

/-! ### Payloads -/

@[simp] theorem length_entryBytes (e : Entry) : (entryBytes e).length = 5 := rfl

theorem length_flatMap_entryBytes (es : List Entry) : (es.flatMap entryBytes).length = 5 * es.length := by
  induction es with
  | nil => rfl
  | cons e es ih => simp [List.flatMap_cons, ih]; omega

/-- "`len = 1 + 5n`" (spec/42_transmit.md R195). -/
theorem length_dataUpdatePayload (es : List Entry) : (dataUpdatePayload es).length = 1 + 5 * es.length := by
  rw [dataUpdatePayload, List.length_cons, length_flatMap_entryBytes]
  omega

/-! ### The ticks -/

/-- Byte `j` of the `k`-th update of a DataUpdate payload (spec/30_encoding.md R89). -/
theorem getElem?_dataUpdatePayload (es : List Entry) (e : Entry) (k j : Nat) (he : es[k]? = some e) (hj : j < 5) :
    (dataUpdatePayload es)[1 + 5 * k + j]? = (entryBytes e)[j]? := by
  rw [dataUpdatePayload, show 1 + 5 * k + j = 5 * k + j + 1 by omega, List.getElem?_cons_succ]
  induction es generalizing k with
  | nil => simp at he
  | cons x xs ih =>
    rw [List.flatMap_cons]
    cases k with
    | zero =>
      obtain rfl : x = e := by simpa using he
      rw [List.getElem?_append_left (by simp only [length_entryBytes]; omega), Nat.mul_zero, Nat.zero_add]
    | succ k =>
      rw [List.getElem?_append_right (by simp only [length_entryBytes]; omega), length_entryBytes,
        show 5 * (k + 1) + j - 5 = 5 * k + j by omega]
      exact ih k (by simpa using he)

/-- An idle tick that is not the `ALIVE_PERIOD`-th only counts. -/
theorem idleTick_counts (s : State) (h : (s.idleTicks + 1).toNat ≠ s.params.alivePeriod) :
    idleTick s = .next { s with idleTicks := s.idleTicks + 1 } := by
  rw [idleTick, if_neg h]

/-- The `ALIVE_PERIOD`-th idle tick sends the alive frame (R197). -/
theorem idleTick_alive (s : State) (hw : s.params.wellFormed = true)
    (h : (s.idleTicks + 1).toNat = s.params.alivePeriod) :
    idleTick s = .next (State.emit
      { s with idleTicks := 0, txBuf := Store.write s.txBuf 0 s.params.aliveMarker }
      [.txWrite [s.params.syncByte],
        .txWrite (frameBody s.params s.devAddr s.params.cmdChainSync [s.params.aliveMarker])]) := by
  have hr := params_ranges _ hw
  have hst : storeTx 0 s.params.aliveMarker { s with idleTicks := 0 } =
      .next { s with idleTicks := 0, txBuf := Store.write s.txBuf 0 s.params.aliveMarker } :=
    (storeTx_eq_next _ _ _ _).2 ⟨by simp only; omega, rfl⟩
  rw [idleTick, if_pos h, hst, andThen_next, sendFrame_staged _ _ 1 _ [s.params.aliveMarker] rfl]
  intro k hk
  obtain rfl : k = 0 := by omega
  simp

/-- A drain tick of a queue in its ring: one DataUpdate frame of the oldest updates (R193, R194). -/
theorem drainTick_sends (s : State) (hw : s.params.wellFormed = true) (hh : s.qHead.toNat < ringSize s.params)
    (ht : s.qTail.toNat < ringSize s.params) (n : Nat) (hn : n = min (qCount s) (updMax s.params))
    (payload : List Byte) (hpl : payload = dataUpdatePayload ((absQueue s).take n)) :
    drainTick s = .next (State.emit
      { s with
        idleTicks := 0
        txBuf := Store.writeRun s.txBuf 0 payload
        qTail := BitVec.ofNat 8 ((s.qTail.toNat + n) % ringSize s.params) }
      [.txWrite [s.params.syncByte],
        .txWrite (frameBody s.params s.devAddr s.params.cmdDataUpdate payload)]) := by
  have hp := params_ranges _ hw
  have hu := updMax_ranges _ hw
  have htake : ((absQueue s).take n).length = n := by rw [List.length_take, length_absQueue]; omega
  have hlen : payload.length = 1 + 5 * n := by rw [hpl, length_dataUpdatePayload, htake]
  have hst : storeTx 0 (BitVec.ofNat 8 n) { s with idleTicks := 0 } =
      .next { s with idleTicks := 0, txBuf := Store.write s.txBuf 0 (BitVec.ofNat 8 n) } :=
    (storeTx_eq_next _ _ _ _).2 ⟨by simp only; omega, rfl⟩
  have hq : absQueue { s with idleTicks := 0, txBuf := Store.write s.txBuf 0 (BitVec.ofNat 8 n) } = absQueue s :=
    absQueue_congr _ _ rfl rfl rfl rfl rfl
  have hmem : Store.writeRun (Store.write s.txBuf 0 (BitVec.ofNat 8 n)) (1 + 5 * 0)
      (((absQueue s).take n).flatMap entryBytes) = Store.writeRun s.txBuf 0 payload := by
    rw [hpl, dataUpdatePayload, htake]
    rfl
  rw [drainTick, ← hn, hst, andThen_next,
    drainLoop_holds n 0 { s with idleTicks := 0, txBuf := Store.write s.txBuf 0 (BitVec.ofNat 8 n) } hp.2.1 hh ht
      (by rw [hn]; exact Nat.min_le_left _ _) (by simp only; omega),
    andThen_next, hq]
  simp only [hmem]
  rw [sendFrame_staged _ _ _ _ payload hlen]
  intro k hk
  rw [Store.read_writeRun, if_pos (by omega)]
  simp

/-- The queue after `n` entries left it. -/
theorem absQueue_drained (n : Nat) (s : State) (hc : s.params.uqCapacity ≤ 255)
    (hh : s.qHead.toNat < ringSize s.params) (ht : s.qTail.toNat < ringSize s.params) (hn : n ≤ qCount s) :
    absQueue { s with qTail := BitVec.ofNat 8 ((s.qTail.toNat + n) % ringSize s.params) } = (absQueue s).drop n := by
  induction n generalizing s with
  | zero => simp [Nat.mod_eq_of_lt ht]
  | succ n ih =>
    have hne : qCount s ≠ 0 := by omega
    have hq := qCount_pop s hc hh ht hne
    have hnt := ringNext_toNat s s.qTail hc
    have hlt : (ringNext s s.qTail).toNat < ringSize s.params := by
      rw [hnt]; exact Nat.mod_lt _ (Nat.succ_pos _)
    have := ih { s with qTail := ringNext s s.qTail } hc hh hlt (by omega)
    rw [absQueue_pop s hc hh ht hne, List.drop_succ_cons, ← this]
    congr 3
    simp only [hnt]
    rw [Nat.mod_add_mod, Nat.add_assoc, Nat.add_comm 1 n]

end Sys2Proof.Machine
end

