-- ==== Sys2Proof/Laws/Receive.lean ====
section
/-! SUPPORT. What a byte that validates no frame leaves behind, and what a run of bytes does. -/

namespace Sys2Proof.Machine

/-- A byte inside the budget only counts. -/
theorem afterByte_inside (t : State) (es : List Event) (h : t.byteCount.toNat + 1 < t.params.syncBudget)
    (hb : t.params.syncBudget ≤ 4095) :
    afterByte t es =
      { t with byteCount := t.byteCount + 1, out := t.out ++ es, untaken := t.untaken ++ es } := by
  have hn : (t.byteCount + 1).toNat = t.byteCount.toNat + 1 := by
    rw [BitVec.toNat_add]
    simp
    omega
  rw [afterByte, if_neg (by omega)]

/-- A buffer in two parts: the second goes on from where the first left off. -/
theorem feedBytes_append (xs ys : List Byte) (s : State) :
    feedBytes (xs ++ ys) s = andThen (feedBytes xs s) (feedBytes ys) := by
  induction xs generalizing s with
  | nil => rfl
  | cons x xs ih =>
    simp only [List.cons_append, feedBytes, andThen_assoc]
    congr 1
    funext t
    exact ih _

/-- The last bytes of a payload, inside the budget: they are stored in order, the register runs over them, and the
CRC byte is next (spec/40_receive.md R127). -/
theorem feedBytes_payload (xs : List Byte) (s : State) (hs : s.rxState = .readPayload) (hne : xs ≠ [])
    (hl : s.rxIdx.toNat + xs.length = s.rxLen.toNat) (hm : s.rxLen.toNat ≤ s.params.rxPayloadMax)
    (hb : s.params.syncBudget ≤ 4095) (hc : s.byteCount.toNat + xs.length < s.params.syncBudget) :
    feedBytes xs s = .next
      { s with
        rxState := .readCrc
        rxIdx := s.rxLen
        rxCrc := crcRun s.params s.rxCrc xs
        rxBuf := Store.writeRun s.rxBuf s.rxIdx.toNat xs
        byteCount := BitVec.ofNat 12 (s.byteCount.toNat + xs.length)
        untaken := [] } := by
  induction xs generalizing s with
  | nil => exact absurd rfl hne
  | cons x xs ih =>
    have hlt := s.rxLen.isLt
    simp only [List.length_cons] at hl hc
    have h1 : (s.rxIdx + 1).toNat = s.rxIdx.toNat + 1 := by
      rw [BitVec.toNat_add]
      simp
      omega
    have hbc : (s.byteCount + 1).toNat = s.byteCount.toNat + 1 := by
      rw [BitVec.toNat_add]
      simp
      omega
    have hst : storeRx s.rxIdx.toNat x s.takeAll = .next _ :=
      (storeRx_eq_next _ _ _ _).2 ⟨by simp only [State.takeAll_params]; omega, rfl⟩
    have hd : decodeStep x s.takeAll = .next
        ⟨{ s.takeAll with
            rxBuf := Store.write s.rxBuf s.rxIdx.toNat x
            rxIdx := s.rxIdx + 1
            rxCrc := crc8Step s.params s.rxCrc x
            rxState := if s.rxIdx + 1 = s.rxLen then .readCrc else .readPayload }, [], false⟩ := by
      simp only [decodeStep, State.takeAll_rxState, hs, decodePayload, State.takeAll_rxIdx, hst, andThen_next]
      rfl
    rw [feedBytes, execRxByte_counts _ _ _ _ hd, andThen_next,
      afterByte_inside _ _ (by simp; omega) (by simpa using hb)]
    cases xs with
    | nil =>
      have he : s.rxIdx + 1 = s.rxLen := BitVec.eq_of_toNat_eq (by rw [h1]; simpa using hl)
      simp only [feedBytes, State.takeAll, he, if_true, List.append_nil, crcRun_cons, crcRun_nil]
      congr 2
    | cons y ys =>
      simp only [List.length_cons] at hl hc
      have hne' : s.rxIdx + 1 ≠ s.rxLen := fun e => by
        have : (s.rxIdx + 1).toNat = s.rxLen.toNat := by rw [e]
        omega
      simp only [hne', if_false]
      have hm' := ih (State.takeAll
          { s.takeAll with
            rxBuf := Store.write s.rxBuf s.rxIdx.toNat x
            rxIdx := s.rxIdx + 1
            rxCrc := crc8Step s.params s.rxCrc x
            rxState := .readPayload
            byteCount := s.byteCount + 1
            out := s.out ++ []
            untaken := [] ++ [] })
        rfl (by simp) (by simp only [State.takeAll, List.length_cons]; omega) hm hb
        (by simp only [State.takeAll, List.length_cons]; omega)
      refine Eq.trans hm' ?_
      simp only [State.takeAll, List.append_nil, hbc, h1, crcRun_cons, List.length_cons, Store.writeRun]
      congr 3
      omega

end Sys2Proof.Machine
end

