-- ==== Sys2Proof/Tests/Slice0.lean ====
section
/-! SUPPORT. Tests of single steps, with expected results from spec/95_test_vectors.md (its vector is named in each
docstring), and for each statement that has hypotheses a state and operands that meet them. -/

namespace Sys2Proof.Tests

open Sys2Proof Sys2Proof.Machine

/-! ### Helpers -/

/-- A block of the test configuration TC right after reset. -/
def bare : State := State.powerOn Params.test

/-- The outcome is a next state for which the check holds. -/
def ends (o : Host.Outcome State Fault Refusal) (check : State → Bool) : Bool :=
  match o with
  | .next t => check t
  | .fault _ => false
  | .refused _ => false

/-- The outcome is this fault. -/
def faults (o : Host.Outcome State Fault Refusal) (r : Fault) : Bool :=
  match o with
  | .next _ => false
  | .fault r' => r == r'
  | .refused _ => false

/-- A queue of three entries of the four it can hold. -/
def queued : State := { bare with slots := [(0, ⟨1, 0x41200000⟩), (1, ⟨2, 0x3F051EB8⟩), (2, ⟨3, 0x3F800000⟩)], qHead := 3 }

/-- A full queue that has wrapped: the state before the last five pops of V-Q-5. -/
def wrapped : State :=
  { bare with
    slots := [(0, ⟨6, 6⟩), (1, ⟨7, 7⟩), (2, ⟨3, 3⟩), (3, ⟨4, 4⟩), (4, ⟨5, 5⟩)]
    qHead := 2
    qTail := 3 }

/-- Inside a payload of two bytes, one of them stored: V-RX-21. -/
def midPayload : State :=
  { bare with
    rxState := .readPayload
    rxCmd := 0x07
    rxLen := 2
    rxIdx := 1
    rxCrc := crc8 Params.test [0x00, 0x07, 0x02, 0x00, 0xA7]
    rxBuf := [(0, 0xA7)]
    byteCount := 6 }

/-- At the CRC byte of the frame of V-RX-2. -/
def atCrc : State :=
  { bare with
    rxState := .readCrc
    rxAddr := 0x03
    rxCmd := 0x02
    rxLen := 1
    rxIdx := 1
    rxCrc := 0x13
    rxBuf := [(0, 0x01)]
    byteCount := 6 }

/-- At the high length byte, the low one being `lo`. -/
def atLengthHigh (lo : Byte) : State :=
  { bare with rxState := .readLengthHigh, rxLen := lo.setWidth 16, byteCount := 4 }

/-- A staged payload of two bytes: V-TX-1. -/
def staged : State := { bare with txBuf := [(0, 0xAA), (1, 0xBB)] }

/-! ### Well-formedness refuses each ill-formed term -/

theorem test_params_wellFormed : Params.default.wellFormed = true ∧ Params.test.wellFormed = true := by decide

theorem test_params_capacity_refused :
    { Params.test with uqCapacity := 0 }.wellFormed = false ∧
    { Params.test with uqCapacity := 256 }.wellFormed = false := by decide

theorem test_params_payload_budget_refused :
    { Params.test with framePayloadBudget := 5 }.wellFormed = false ∧
    { Params.test with framePayloadBudget := 17 }.wellFormed = false := by decide

theorem test_params_buffers_refused :
    { Params.test with txPayloadMax := 65536 }.wellFormed = false ∧
    { Params.test with rxPayloadMax := 65536 }.wellFormed = false := by decide

theorem test_params_sync_budget_refused :
    { Params.test with syncBudget := 6 }.wellFormed = false ∧
    { Params.test with syncBudget := 4096 }.wellFormed = false := by decide

theorem test_params_alive_period_refused :
    { Params.test with alivePeriod := 0 }.wellFormed = false ∧
    { Params.test with alivePeriod := 65536 }.wellFormed = false := by decide

theorem test_lines_refused :
    (AsmLine.rxb 256).wellFormed = false ∧ (AsmLine.qpush 256 0).wellFormed = false ∧
    (AsmLine.qpush 0 4294967296).wellFormed = false ∧ (AsmLine.setaddr 256 0).wellFormed = false ∧
    (AsmLine.setaddr 0 2).wellFormed = false ∧ (AsmLine.txbw 65536 0).wellFormed = false ∧
    (AsmLine.txbw 0 256).wellFormed = false ∧ (AsmLine.txsend 256 0 0).wellFormed = false ∧
    (AsmLine.txsend 0 256 0).wellFormed = false ∧ (AsmLine.txsend 0 0 65536).wellFormed = false ∧
    (AsmLine.w48 281474976710656).wellFormed = false := by decide

/-! ### Words written out from R81 and R82 decode to what they stand for -/

/-- Bit by bit: zeros, `A8 = 1010 0111`, `OP = 0001`. -/
theorem test_decode_rxByte :
    decodeWord 0b000000000000000000000000000000000000_10100111_0001 = .operation (.rxByte 0xA7) := by decide

/-- `V32 = 0x41200000`, `A8 = 0x01`, `OP = 0010`. -/
theorem test_decode_qPush :
    decodeWord 0b0000_01000001001000000000000000000000_00000001_0010 = .operation (.qPush 1 0x41200000) := by decide

theorem test_decode_no_operands :
    decodeWord 0x3 = .operation .qPop ∧ decodeWord 0x4 = .operation .qClear ∧
    decodeWord 0x5 = .operation .frameTick := by decide

/-- `S1 = 1`, `A8 = 0x05`, `OP = 0110`. -/
theorem test_decode_setAddr :
    decodeWord 0b00000000000000000000000000000000000_1_00000101_0110 = .operation (.setAddr 5 true) := by decide

/-- `I16 = 1`, `A8 = 0xBB`, `OP = 0111`. -/
theorem test_decode_txbWr :
    decodeWord 0b00000000000000000000_0000000000000001_10111011_0111 = .operation (.txbWr 1 0xBB) := by decide

/-- `L16 = 2`, `B8 = 0x01`, `A8 = 0x00`, `OP = 1000`. -/
theorem test_decode_txSend :
    decodeWord 0b000000000000_0000000000000010_00000001_00000000_1000 = .operation (.txSend 0 1 2) := by decide

/-- V-ENC-1, V-ENC-4: rejected by name. -/
theorem test_decode_rejects :
    decodeWord 0x000000000000 = .illegal (.reservedOpcode 0) ∧
    decodeWord 0x000000001A71 = .illegal (.mustBeZero .B) := by decide

/-- The words of P2 and P4. -/
theorem test_encode_program_words :
    encode (.qPush 2 0x3F051EB8) = 0x03F051EB8022 ∧ encode (.setAddr 5 true) = 0x000000001056 ∧
    encode (.txbWr 1 0xBB) = 0x000000001BB7 ∧ encode (.txSend 0 1 2) = 0x000000201008 := by decide

/-- P4's line `txsend 0, 1, 2` as text. -/
theorem test_assemble_text :
    assembleText ['t', 'x', 's', 'e', 'n', 'd', ' ', '0', ',', ' ', '0', 'x', '1', ',', '2', ' ', ';', '!'] =
      some [0x000000201008] := by decide +kernel

/-- R92: `sendframe 0, 1, [7]`. -/
theorem test_assemble_sendframe :
    assembleText ['s', 'e', 'n', 'd', 'f', 'r', 'a', 'm', 'e', ' ', '0', ',', '1', ',', '[', '7', ']'] =
      some [0x000000000077, 0x000000101008] := by decide +kernel

/-! ### Instructions -/

/-- V-RX-21: after `A7 00 07 02 00 A7`. -/
theorem test_rxByte_payload :
    status0 midPayload = 0x00100005 ∧ status1 midPayload = 0x00000006 ∧
    ends (exec (.rxByte 0xA7) midPayload) (fun t =>
      t.rxState == .readCrc && t.rxIdx == 2 && Store.read t.rxBuf 1 == some 0xA7 && t.rxCrc == 0xA3) = true := by
  decide +kernel

/-- V-RX-2's last byte. -/
theorem test_rxByte_validates :
    ends (exec (.rxByte 0x13) atCrc) (fun t =>
      t.out == [.frameOk 0x03 0x02 [0x01]] && t.byteCount == 0 && t.rxState == .idle) = true := by decide +kernel

/-- V-Q-2's fourth push, and the fifth that is dropped. -/
theorem test_qPush :
    ends (exec (.qPush 4 0x400) queued) (fun t => t.qHead == 4 && status0 t == 0x00204000) = true ∧
    ends (exec (.qPush 9 9) wrapped) (fun t => t == wrapped) = true := by decide +kernel

/-- V-Q-5: the tail wraps. -/
theorem test_qPop :
    ends (exec .qPop { wrapped with qTail := 4 }) (fun t => t.qTail == 0 && t.out == [.popped 5 5]) = true ∧
    ends (exec .qPop bare) (fun t => t.out == [.popEmpty] && status0 t == 0x00100000) = true := by decide +kernel

/-- V-Q-4. -/
theorem test_qClear :
    ends (exec .qClear queued) (fun t => t.qHead == 0 && t.qTail == 0 && t.slots == queued.slots) = true := by
  decide +kernel

/-- V-TX-5. -/
theorem test_frameTick_drain :
    ends (exec .frameTick { queued with devAddr := 5, addrAssigned := true }) (fun t =>
      t.out == [.txWrite [0xA7], .txWrite [0x05, 0x05, 0x0B, 0x00, 0x02, 0x01, 0x00, 0x00, 0x20, 0x41, 0x02, 0xB8,
        0x1E, 0x05, 0x3F, 0x2F]] && t.qTail == 2 && status0 t == 0x00001058) = true := by decide +kernel

/-- V-TX-7, the third idle tick, and V-TX-8, the first. -/
theorem test_frameTick_idle :
    ends (exec .frameTick { bare with devAddr := 5, idleTicks := 2 }) (fun t =>
      t.out == [.txWrite [0xA7], .txWrite [0x05, 0x00, 0x01, 0x00, 0x01, 0x73]] && t.idleTicks == 0) = true ∧
    ends (exec .frameTick bare) (fun t => t.out == [] && status1 t == 0x00010000) = true := by decide +kernel

/-- V-RX-3's address state. -/
theorem test_setAddr :
    ends (exec (.setAddr 5 true) bare) (fun t => status0 t == 0x00100058) = true := by decide +kernel

/-- V-TX-2: the last writable byte, and the first that is not. -/
theorem test_txbWr :
    ends (exec (.txbWr 15 1) bare) (fun t => t.txBuf == [(15, 1)] && t.out == []) = true ∧
    ends (exec (.txbWr 16 1) bare) (fun t => t.txBuf == [] && t.out == [.txRangeError]) = true := by decide +kernel

/-- V-TX-1 and V-TX-9. -/
theorem test_txSend :
    ends (exec (.txSend 0 1 2) staged) (fun t =>
      t.out == [.txWrite [0xA7], .txWrite [0x00, 0x01, 0x02, 0x00, 0xAA, 0xBB, 0xCB]]) = true ∧
    faults (exec (.txSend 0 1 1) bare) (.unwrittenTxByte 0) = true := by decide +kernel

/-- V-TX-3 and V-TX-4. -/
theorem test_txSend_lengths :
    ends (exec (.txSend 0 1 17) staged) (fun t => t.out == [.txLenError]) = true ∧
    ends (exec (.txSend 0 1 0) bare) (fun t =>
      t.out == [.txWrite [0xA7], .txWrite [0x00, 0x01, 0x00, 0x00, 0x06]]) = true := by decide +kernel

/-! ### The step -/

/-- V-ENC-1. -/
theorem test_step_illegal :
    ends (step { bare with port := [.operation 0] }) (fun t => t.out == [.illegalOp 0] && t.port == []) = true := by
  decide +kernel

/-- The host's placing: the next step performs the word. -/
theorem test_step_withFetchWord :
    ends (step (State.reset.withFetchWord 48 0x000000001056)) (fun t =>
      t.devAddr == 5 && t.addrAssigned && t.port == []) = true := by decide +kernel

/-- V-RST-2: a reset inside a frame. -/
theorem test_step_reset :
    ends (step { midPayload with port := [.reset] }) (fun t =>
      status0 t == 0x00100000 && status1 t == 0x00000000 && t.rxBuf == []) = true := by decide +kernel

/-- V-RST-4: reset clears the written bits. -/
theorem test_reset_forgets_txBuf :
    faults (exec (.txSend 0 1 1) staged.applyReset) (.unwrittenTxByte 0) = true := by decide +kernel

/-- V-RX-4: the FEED's result. -/
theorem test_feed_result :
    (match feed [0x00] atCrc with
      | .next (_, r) => r == .framingError
      | .fault _ => false
      | .refused _ => false) = true := by decide +kernel

/-! ### States that meet the hypotheses of the statements -/

theorem test_inv_bare : StateInv bare :=
  ⟨by decide, by decide, by decide, by decide, by decide, by decide, by decide, by decide, by decide, by decide,
    by decide, by decide, by decide, [], rfl⟩

theorem test_inv_queued : StateInv queued :=
  ⟨by decide, by decide, by decide, by decide, by decide, by decide, by decide, by decide, by decide, by decide,
    by decide, by decide, by decide, [], rfl⟩

theorem test_inv_wrapped : StateInv wrapped :=
  ⟨by decide, by decide, by decide, by decide, by decide, by decide, by decide, by decide, by decide, by decide,
    by decide, by decide, by decide, [], rfl⟩

theorem test_inv_midPayload : StateInv midPayload :=
  ⟨by decide, by decide, by decide, by decide, by decide, by decide, by decide, by decide, by decide, by decide,
    by decide, by decide, by decide, [], rfl⟩

theorem test_inv_atCrc : StateInv atCrc :=
  ⟨by decide, by decide, by decide, by decide, by decide, by decide, by decide, by decide, by decide, by decide,
    by decide, by decide, by decide, [], rfl⟩

theorem test_crc_tracks : CrcTracks midPayload ∧ CrcTracks atCrc := by
  constructor
  · show midPayload.rxCrc = _
    decide +kernel
  · show atCrc.rxCrc = _
    decide +kernel

/-- EncodeOfDecodeIsTheWord and RowSelectsExactlyItsOperation: the word of a row. -/
theorem test_meets_row :
    decodeWord 0x000000000A71 = .operation (.rxByte 0xA7) ∧
    ∃ r ∈ opcodeRows, (0x000000000A71 : OpWord) &&& r.mask = r.pattern :=
  ⟨by decide, ⟨0x1, "RX_BYTE", .B, 0x000000000001, 0xFFFFFFFFF00F⟩, by simp [opcodeRows], by decide⟩

/-- AssembledLineDecodesOrIsAnError: the least operands that do not fit. -/
theorem test_meets_operand_too_large :
    (256 : Nat) ≤ 256 ∧ (2 : Nat) ^ 16 ≤ 65536 ∧ (2 : Nat) ^ 32 ≤ 4294967296 ∧ (2 : Nat) ^ 48 ≤ 281474976710656 := by
  decide

/-- StepRunsTheDecodedOperation. -/
theorem test_meets_presented :
    let s := { bare with port := [.operation 0x000000000A71] }
    s.params.wellFormed = true ∧ s.untaken = [] ∧ s.port = .operation 0x000000000A71 :: [] ∧
      decodeWord 0x000000000A71 = .operation (.rxByte 0xA7) := by decide

/-- IllegalWordIsReportedAndChangesNothing. -/
theorem test_meets_illegal :
    let s := { bare with port := [.operation 0x000000001A71] }
    s.params.wellFormed = true ∧ s.untaken = [] ∧ s.port = .operation 0x000000001A71 :: [] ∧
      ∀ r ∈ opcodeRows, (0x000000001A71 : OpWord) &&& r.mask ≠ r.pattern := by decide

/-- UntakenEventStallsThePort: an integrator that takes one more event, and one that takes none. -/
theorem test_meets_untaken :
    let s := { bare with out := [.popEmpty], untaken := [.popEmpty], takes := 1 }
    let s' := { bare with out := [.popEmpty], untaken := [.popEmpty] }
    s.params.wellFormed = true ∧ s.untaken = .popEmpty :: [] ∧ s.takes = 0 + 1 ∧
      s'.params.wellFormed = true ∧ s'.untaken = .popEmpty :: [] ∧ s'.takes = 0 := by decide

/-- ResetSetsTheTableAndKeepsTheLog, ResetWinsOverAnOperation and IdleBlockKeepsItsState. -/
theorem test_meets_ready :
    let s := { midPayload with port := [.reset] }
    s.params.wellFormed = true ∧ s.untaken = [] ∧ s.port = .reset :: [] ∧
      bare.params.wellFormed = true ∧ bare.untaken = [] ∧ bare.port = [] := by decide

/-- StatusAfterReset, InvariantHoldsAfterReset, StatusZeroFields and ClearEmptiesTheQueue. -/
theorem test_meets_configuration : Params.test.wellFormed = true ∧ queued.params.wellFormed = true := by decide

/-- STATUS0.RXS in each decoder state, with the encoding of R23; StatusZeroFields, each clause of RXS. -/
theorem test_status0_rxs :
    [RxState.idle, .readAddress, .readCommand, .readLengthLow, .readLengthHigh, .readPayload, .readCrc].map
      (fun r => (status0 { bare with rxState := r }).extractLsb' 0 3) = [0, 1, 2, 3, 4, 5, 6] := by decide

/-- StepKeepsTheInvariant, StepKeepsTheRunningCrc, NoStepChangesAParameter and LogOnlyGrowsByOneOperation. -/
theorem test_meets_step : StateInv midPayload ∧ CrcTracks midPayload ∧ ∃ t, step midPayload = .next t :=
  ⟨test_inv_midPayload, test_crc_tracks.1, midPayload, by rfl⟩

/-- StepCompletesUnlessATransmitByteIsUnwritten: its second case does occur. -/
theorem test_meets_unwritten_step :
    faults (step { bare with port := [.operation 0x000000101008] }) (.unwrittenTxByte 0) = true := by decide +kernel

/-- EachFieldIsWrittenOnlyByItsOperations and DecoderSeesOnlyReceiveAndAddressState. -/
theorem test_meets_exec :
    (∃ t, exec (.rxByte 0xA7) bare = .next t) ∧ queued.params = bare.params ∧ queued.resets = bare.resets ∧
      SameReceive bare queued ∧ SameAddress bare queued :=
  ⟨⟨_, rfl⟩, rfl, rfl, ⟨rfl, rfl, rfl, rfl, rfl, rfl, rfl, rfl⟩, rfl, rfl⟩

/-- ErrorsAreRecoveredLocally: an event of each class of error. -/
theorem test_meets_errors :
    (∃ t, exec (.txbWr 16 1) bare = .next t ∧ .txRangeError ∈ newEvents bare t ∧
      eventClass .txRangeError = .operationError) ∧
    (∃ t, exec (.rxByte 0x00) { atCrc with byteCount := 2999 } = .next t ∧
      .crcError ∈ newEvents { atCrc with byteCount := 2999 } t ∧ eventClass .crcError = .framingError ∧
      .budgetExhausted ∈ newEvents { atCrc with byteCount := 2999 } t) :=
  ⟨⟨_, rfl, by decide +kernel, rfl⟩, ⟨_, rfl, by decide +kernel, rfl, by decide +kernel⟩⟩

/-- CrcDetectsAnyOneChangedByte. -/
theorem test_meets_changed_byte : Params.test.crcPoly.getLsbD 0 = true ∧ (0x00 : Byte) ≠ 0x01 := by decide

/-- RxByteInIdle, RxByteInReadAddress and RxByteInReadCommandAndLengthLow: each state, with an address the filter
accepts and one it rejects. -/
theorem test_meets_early_states :
    bare.rxState = .idle ∧
    (let s := { bare with rxState := .readAddress, devAddr := 5, addrAssigned := true }
     s.rxState = .readAddress ∧ (0x05 = s.params.bcastAddr ∨ s.addrAssigned = false ∨ 0x05 = s.devAddr) ∧
      ¬(0x03 = s.params.bcastAddr ∨ s.addrAssigned = false ∨ 0x03 = s.devAddr)) ∧
    { bare with rxState := .readCommand }.rxState = .readCommand ∧
    { bare with rxState := .readLengthLow }.rxState = .readLengthLow := by decide

/-- RxByteInReadLengthHigh: length 0, the least and the greatest that fit (1 and 2994), the least that does not (2995). -/
theorem test_meets_lengths :
    let len := fun (lo b : Byte) => b.toNat * 256 + (atLengthHigh lo).rxLen.toNat % 256
    (atLengthHigh 0).rxState = .readLengthHigh ∧ len 0x00 0x00 = 0 ∧
    (0 < len 0x01 0x00 ∧ len 0x01 0x00 ≤ (atLengthHigh 0).params.rxPayloadMax) ∧
    (0 < len 0xB2 0x0B ∧ len 0xB2 0x0B ≤ (atLengthHigh 0).params.rxPayloadMax) ∧
    (0 < len 0xB3 0x0B ∧ (atLengthHigh 0).params.rxPayloadMax < len 0xB3 0x0B) := by decide

/-- RxByteInReadPayload, RxByteInReadCrc (the right CRC byte and a wrong one) and RxByteEventsAndCount (a byte inside the
budget and the last of it). -/
theorem test_meets_late_states :
    midPayload.rxState = .readPayload ∧ atCrc.rxState = .readCrc ∧
    0x13 = atCrc.rxCrc ^^^ atCrc.params.crcXorout ∧ 0x00 ≠ atCrc.rxCrc ^^^ atCrc.params.crcXorout ∧
    midPayload.byteCount.toNat + 1 < midPayload.params.syncBudget ∧
    (∃ t, exec (.rxByte 0x00) midPayload = .next t) ∧
    { bare with byteCount := 2999 }.byteCount.toNat + 1 = Params.test.syncBudget ∧
    (∃ t, exec (.rxByte 0x00) { bare with byteCount := 2999 } = .next t) :=
  ⟨rfl, rfl, by decide, by decide, by decide, ⟨_, rfl⟩, by decide, ⟨_, rfl⟩⟩

theorem test_inv_last_byte : StateInv { bare with byteCount := 2999 } :=
  ⟨by decide, by decide, by decide, by decide, by decide, by decide, by decide, by decide, by decide, by decide,
    by decide, by decide, by decide, [], rfl⟩

/-- NoiseExhaustsTheBudget. -/
theorem test_meets_noise :
    let s := { bare with byteCount := 2997 }
    s.params.wellFormed = true ∧ s.rxState = .idle ∧ (∀ x ∈ ([0x55, 0x00] : List Byte), x ≠ s.params.syncByte) ∧
      (0x12 : Byte) ≠ s.params.syncByte ∧
      s.byteCount.toNat + ([0x55, 0x00] : List Byte).length + 1 = s.params.syncBudget := by decide

/-- LoopbackDeliversTheSentFrame, with a payload and without one. -/
theorem test_meets_loopback :
    (∃ v, exec (.txSend 0 1 2) staged = .next v) ∧ (∃ v, exec (.txSend 0 1 0) staged = .next v) ∧
    (2 : Half).toNat ≤ staged.params.txPayloadMax ∧ bare.params = staged.params ∧ bare.params.wellFormed = true ∧
    (2 : Half).toNat ≤ bare.params.rxPayloadMax ∧ bare.rxState = .idle ∧
    (0x00 = bare.params.bcastAddr ∨ bare.addrAssigned = false ∨ 0x00 = bare.devAddr) ∧
    bare.byteCount.toNat + (2 : Half).toNat + 5 < bare.params.syncBudget :=
  ⟨⟨_, rfl⟩, ⟨_, rfl⟩, by decide, rfl, by decide, by decide, rfl, by decide, by decide⟩

/-- CorruptedPayloadIsNotDelivered and ForeignFrameIsDroppedAtItsAddress. -/
theorem test_meets_corrupted_and_foreign :
    (bare.params.wellFormed = true ∧ bare.params.crcPoly.getLsbD 0 = true ∧ bare.rxState = .idle ∧
      (0x00 = bare.params.bcastAddr ∨ bare.addrAssigned = false ∨ 0x00 = bare.devAddr) ∧
      (([] : List Byte) ++ (0x01 : Byte) :: []).length ≤ bare.params.rxPayloadMax ∧ (0x01 : Byte) ≠ 0x03 ∧
      bare.byteCount.toNat + (([] : List Byte) ++ (0x01 : Byte) :: []).length + 6 < bare.params.syncBudget) ∧
    (let s := { bare with devAddr := 5, addrAssigned := true }
     s.params.wellFormed = true ∧ s.rxState = .idle ∧ s.addrAssigned = true ∧ (0x03 : Byte) ≠ s.devAddr ∧
      (0x03 : Byte) ≠ s.params.bcastAddr ∧ s.byteCount.toNat + 2 < s.params.syncBudget) := by decide

/-- SetAddrSparesAFrameInProgress. -/
theorem test_meets_frame_in_progress : midPayload.rxState ≠ .readAddress := by decide

/-- PushAppendsOrIsDropped and PopReportsTheOldestOrEmpty: not full, full, not empty, empty. -/
theorem test_meets_queue_bounds :
    qCount bare = 0 ∧ qCount queued < queued.params.uqCapacity ∧ qCount queued + 1 = queued.params.uqCapacity ∧
      qCount wrapped = wrapped.params.uqCapacity ∧ qCount queued ≠ 0 := by decide

/-- OverfilledQueueYieldsTheFirstInOrder. -/
theorem test_meets_overfilled :
    StateInv bare ∧ qCount bare = 0 ∧ bare.params.uqCapacity ≤ (List.replicate 9 (⟨1, 2⟩ : Entry)).length :=
  ⟨test_inv_bare, by decide, by decide⟩

/-- TxbWrWritesOneByteOrReports: the last index inside and the first outside. -/
theorem test_meets_txbWr :
    (15 : Half).toNat < bare.params.txPayloadMax ∧ bare.params.txPayloadMax ≤ (16 : Half).toNat := by decide

/-- TxSendSendsTheStagedPayload: a staged payload, an unwritten byte, a length above the buffer's size. -/
theorem test_meets_txSend :
    (2 : Half).toNat ≤ staged.params.txPayloadMax ∧ ([0xAA, 0xBB] : List Byte).length = (2 : Half).toNat ∧
    (∀ i, i < (2 : Half).toNat → Store.read staged.txBuf i = ([0xAA, 0xBB] : List Byte)[i]?) ∧
    ((16 : Half).toNat ≤ staged.params.txPayloadMax ∧ 2 < (16 : Half).toNat ∧ Store.read staged.txBuf 2 = none ∧
      ∀ k, k < 2 → Store.read staged.txBuf k ≠ none) ∧
    staged.params.txPayloadMax < (17 : Half).toNat := by decide

/-- IdleTickCountsOrSendsAlive and AliveComesOnThePeriodThIdleTick: a tick before the last of the period, and the last. -/
theorem test_meets_idle_tick :
    bare.params.wellFormed = true ∧ qCount bare = 0 ∧ bare.idleTicks = 0 ∧
    bare.idleTicks.toNat + 1 < bare.params.alivePeriod ∧
    (let s := { bare with idleTicks := 2 }
     qCount s = 0 ∧ s.idleTicks.toNat < s.params.alivePeriod ∧ s.idleTicks.toNat + 1 = s.params.alivePeriod) := by decide

/-- DrainTickSendsTheOldestUpdates and DrainTicksEmptyTheQueue. -/
theorem test_meets_drain :
    StateInv queued ∧ qCount queued ≠ 0 ∧
      2 ≤ (qCount queued + updMax queued.params - 1) / updMax queued.params :=
  ⟨test_inv_queued, by decide, by decide⟩

/-- SendframeSendsItsPayload and IdempotentOperations. -/
theorem test_meets_sendframe :
    bare.params.wellFormed = true ∧ ([0xAA, 0xBB] : List Byte).length ≤ bare.params.txPayloadMax ∧
      (15 : Half).toNat < bare.params.txPayloadMax := by decide

end Sys2Proof.Tests
end

