-- ==== Sys2Proof/Proofs/Configuration.lean ====
section
/-! SUPPORT. No operation of the block refuses, so the step's only refusal is the one of a configuration outside the
ranges of spec/00_scope.md R5. -/

namespace Sys2Proof.Machine

/-! ### Outcomes that are no refusal -/

/-- The outcome is a next value or a fault. -/
def NeverRefuses {α : Type} (o : Host.Outcome α Fault Refusal) : Prop := ∀ r, o ≠ .refused r

section Outcomes
variable {α β : Type}

theorem neverRefuses_next (a : α) : NeverRefuses (.next a) := fun _ => nofun

theorem neverRefuses_fault (r : Fault) : NeverRefuses (α := α) (.fault r) := fun _ => nofun

theorem neverRefuses_ite {c : Prop} [Decidable c] {o o' : Host.Outcome α Fault Refusal} (h : NeverRefuses o)
    (h' : NeverRefuses o') : NeverRefuses (if c then o else o') := by
  split <;> assumption

/-- A sequence refuses only where one of its parts does. -/
theorem neverRefuses_andThen {o : Host.Outcome α Fault Refusal} {f : α → Host.Outcome β Fault Refusal}
    (ho : NeverRefuses o) (hf : ∀ a, NeverRefuses (f a)) : NeverRefuses (andThen o f) := by
  cases o with
  | next a => exact hf a
  | fault r => exact neverRefuses_fault r
  | refused r => exact absurd rfl (ho r)

end Outcomes

/-! ### The internal memories -/

theorem storeRx_neverRefuses (i : Nat) (b : Byte) (s : State) : NeverRefuses (storeRx i b s) :=
  neverRefuses_ite (neverRefuses_next _) (neverRefuses_fault _)

theorem storeSlot_neverRefuses (i : Nat) (e : Entry) (s : State) : NeverRefuses (storeSlot i e s) :=
  neverRefuses_ite (neverRefuses_next _) (neverRefuses_fault _)

theorem loadSlot_neverRefuses (i : Nat) (s : State) : NeverRefuses (loadSlot i s) :=
  neverRefuses_ite (neverRefuses_next _) (neverRefuses_fault _)

theorem storeTx_neverRefuses (i : Nat) (b : Byte) (s : State) : NeverRefuses (storeTx i b s) :=
  neverRefuses_ite (neverRefuses_next _) (neverRefuses_fault _)

theorem storeTxRun_neverRefuses (i : Nat) (bs : List Byte) (s : State) : NeverRefuses (storeTxRun i bs s) := by
  induction bs generalizing i s with
  | nil => exact neverRefuses_next s
  | cons b bs ih => exact neverRefuses_andThen (storeTx_neverRefuses i b s) (ih (i + 1))

/-! ### The families -/

theorem decodeStep_neverRefuses (b : Byte) (s : State) : NeverRefuses (decodeStep b s) := by
  unfold decodeStep
  cases s.rxState with
  | readPayload => exact neverRefuses_andThen (storeRx_neverRefuses _ b s) fun _ => neverRefuses_next _
  | readCrc =>
    exact neverRefuses_ite (neverRefuses_ite (neverRefuses_next _) (neverRefuses_fault _)) (neverRefuses_next _)
  | _ => exact neverRefuses_next _

theorem popEntry_neverRefuses (s : State) : NeverRefuses (popEntry s) :=
  neverRefuses_ite (neverRefuses_next _)
    (neverRefuses_andThen (loadSlot_neverRefuses _ s) fun _ => neverRefuses_next _)

theorem sendFrame_neverRefuses (a c : Byte) (len : Nat) (s : State) : NeverRefuses (sendFrame a c len s) := by
  rcases sendFrame_cases a c len s with ⟨_, -, -, hsent⟩ | ⟨_, -, -, hfault⟩
  · rw [hsent]; exact neverRefuses_next _
  · rw [hfault]; exact neverRefuses_fault _

theorem drainLoop_neverRefuses (n k : Nat) (s : State) : NeverRefuses (drainLoop n k s) := by
  induction n generalizing k s with
  | zero => exact neverRefuses_next s
  | succ n ih =>
    exact neverRefuses_andThen (popEntry_neverRefuses s) fun
      | (none, _) => neverRefuses_fault _
      | (some e, t) => neverRefuses_andThen (storeTxRun_neverRefuses _ _ t) (ih (k + 1))

theorem execFrameTick_neverRefuses (s : State) : NeverRefuses (execFrameTick s) := by
  have hidle : NeverRefuses (idleTick s) :=
    neverRefuses_ite
      (neverRefuses_andThen (storeTx_neverRefuses _ _ _) fun t => sendFrame_neverRefuses _ _ _ t)
      (neverRefuses_next _)
  have hdrain : NeverRefuses (drainTick s) :=
    neverRefuses_andThen (storeTx_neverRefuses _ _ _) fun t =>
      neverRefuses_andThen (drainLoop_neverRefuses _ _ t) fun u => sendFrame_neverRefuses _ _ _ u
  exact neverRefuses_ite hidle hdrain

/-! ### The step -/

/-- Every instruction has a meaning: it answers next or faults. -/
theorem exec_neverRefuses (i : Instr) (s : State) : NeverRefuses (exec i s) := by
  cases i with
  | rxByte b => exact neverRefuses_andThen (decodeStep_neverRefuses b s) fun _ => neverRefuses_next _
  | qPush id v =>
    exact neverRefuses_ite (neverRefuses_next s)
      (neverRefuses_andThen (storeSlot_neverRefuses _ _ s) fun _ => neverRefuses_next _)
  | qPop =>
    exact neverRefuses_andThen (popEntry_neverRefuses s) fun
      | (none, _) => neverRefuses_next _
      | (some _, _) => neverRefuses_next _
  | qClear => exact neverRefuses_next _
  | frameTick => exact execFrameTick_neverRefuses s
  | setAddr a f => exact neverRefuses_next _
  | txbWr k b => exact neverRefuses_ite (neverRefuses_next _) (storeTx_neverRefuses _ b s)
  | txSend a c len => exact neverRefuses_ite (neverRefuses_next _) (sendFrame_neverRefuses a c _ s)

theorem acceptInput_neverRefuses (p : PortInput) (s : State) : NeverRefuses (acceptInput p s) := by
  cases p with
  | operation w =>
    simp only [acceptInput, performWord]
    cases decodeWord w with
    | operation i => exact exec_neverRefuses i s
    | illegal _ => exact neverRefuses_next _
  | reset => exact neverRefuses_next _
  | resetWithOperation w => exact neverRefuses_next _

/-- A block built inside the ranges of R5 never refuses. -/
theorem step_neverRefuses (s : State) (hw : s.params.wellFormed = true) : NeverRefuses (step s) := by
  rw [step, portStep, if_pos hw]
  split
  · exact neverRefuses_next _
  · exact neverRefuses_next _
  · exact acceptInput_neverRefuses _ _

/-- The step refuses exactly outside the ranges, and always for that reason. -/
theorem step_eq_refused (s : State) (r : Refusal) :
    step s = .refused r ↔ ¬s.params.wellFormed = true ∧ r = .invalidConfiguration := by
  by_cases hw : s.params.wellFormed = true
  · simp [step_neverRefuses s hw r, hw]
  · simp [step, portStep, hw, eq_comm]

/-- `Params.wellFormed` decides the constraints of R5. -/
theorem params_wellFormed_iff (p : Params) :
    p.wellFormed = true ↔
      1 ≤ p.uqCapacity ∧ p.uqCapacity ≤ 255 ∧ 6 ≤ p.framePayloadBudget ∧ p.framePayloadBudget ≤ p.txPayloadMax ∧
        p.txPayloadMax ≤ 65535 ∧ p.rxPayloadMax ≤ 65535 ∧ 7 ≤ p.syncBudget ∧ p.syncBudget ≤ 4095 ∧
        1 ≤ p.alivePeriod ∧ p.alivePeriod ≤ 65535 :=
  ⟨params_ranges p, fun h => by simpa [Params.wellFormed, and_assoc] using h⟩

/-- Settles O12: inside the ranges no operation refuses, outside them the step does nothing else. -/
theorem outOfRangeConfigurationIsRefused : Obligations.OutOfRangeConfigurationIsRefused := by
  intro s
  rw [step_eq_refused, and_iff_left rfl, params_wellFormed_iff]

end Sys2Proof.Machine
end

