-- ==== Sys2Proof/Proofs/Frame.lean ====
section
/-! SUPPORT. What each operation can leave behind, and what follows for every step: each field has its own writers
(spec/10_state.md R22), no step writes a parameter (R42), and `OUT` grows by one operation's events (R36). -/

namespace Sys2Proof.Machine

/-! ### Everything one operation can do when it answers next -/

@[simp] theorem State.emit_nil (s : State) : s.emit [] = s := by simp [State.emit]

/-- RX_BYTE writes receive fields and emits at most two events. -/
theorem execRxByte_frame (b : Byte) (s t : State) (h : execRxByte b s = .next t) :
    ∃ st a c l i k m n es, es.length ≤ 2 ∧
      t = State.emit { s with
        rxState := st, rxAddr := a, rxCmd := c, rxLen := l, rxIdx := i, rxCrc := k, rxBuf := m,
        byteCount := n } es := by
  rw [execRxByte, andThen_eq_next] at h
  obtain ⟨r, hd, hr⟩ := h
  obtain rfl := Host.Outcome.next.inj hr
  obtain ⟨⟨st, a, c, l, i, k, m, hst⟩, hev⟩ := decodeStep_eq_next b s r hd
  have hlen : r.events.length ≤ 1 := by
    rcases hev with ⟨-, he⟩ | ⟨-, he, -⟩ | ⟨-, he, -⟩ | ⟨-, -, he⟩ <;> simp [he]
  rcases guardBytes_cases r with ⟨-, hg⟩ | ⟨-, -, hg⟩ | ⟨-, -, hg⟩ <;> rw [hg, hst]
  · exact ⟨st, a, c, l, i, k, m, 0, r.events, by omega, rfl⟩
  · exact ⟨.idle, a, c, l, i, k, m, 0, r.events ++ [.budgetExhausted], by simpa using hlen, rfl⟩
  · exact ⟨st, a, c, l, i, k, m, s.byteCount + 1, r.events, by omega, rfl⟩

/-- Q_PUSH changes nothing on a full queue, and otherwise writes the head slot and moves the head on. -/
theorem execQPush_eq_next (id : Byte) (v : Value32) (s t : State) (h : execQPush id v s = .next t) :
    (qCount s = s.params.uqCapacity ∧ t = s) ∨ (qCount s ≠ s.params.uqCapacity ∧ s.qHead.toNat < ringSize s.params ∧
      t = { s with slots := Store.write s.slots s.qHead.toNat ⟨id, v⟩, qHead := ringNext s s.qHead }) := by
  unfold execQPush at h
  split at h
  · exact .inl ⟨by simpa [qFull] using ‹qFull s = true›, (Host.Outcome.next.inj h).symm⟩
  · rename_i hfull
    obtain ⟨u, hu, ht⟩ := (andThen_eq_next _ _ _).1 h
    obtain ⟨hhead, rfl⟩ := (storeSlot_eq_next _ _ _ _).1 hu
    exact .inr ⟨by simpa [qFull] using hfull, hhead, (Host.Outcome.next.inj ht).symm⟩

/-- Q_POP reports one event, and moves the tail on unless the queue is empty. -/
theorem execQPop_eq_next (s t : State) (h : execQPop s = .next t) :
    (qCount s = 0 ∧ t = s.emit [.popEmpty]) ∨
      (qCount s ≠ 0 ∧ s.qTail.toNat < ringSize s.params ∧
        t = State.emit { s with qTail := ringNext s s.qTail }
          [.popped (slotEntry s s.qTail.toNat).id (slotEntry s s.qTail.toNat).value]) := by
  obtain ⟨r, hr, ht⟩ := (andThen_eq_next _ _ _).1 h
  rcases popEntry_eq_next s r hr with ⟨hempty, rfl⟩ | ⟨hne, htail, rfl⟩
  · exact .inl ⟨hempty, (Host.Outcome.next.inj ht).symm⟩
  · exact .inr ⟨hne, htail, (Host.Outcome.next.inj ht).symm⟩

/-- TXB_WR reports an index outside `TxBuf`, and writes the byte at one inside it. -/
theorem execTxbWr_eq_next (i : Half) (b : Byte) (s t : State) (h : execTxbWr i b s = .next t) :
    (s.params.txPayloadMax ≤ i.toNat ∧ t = s.emit [.txRangeError]) ∨
      (i.toNat < s.params.txPayloadMax ∧ t = { s with txBuf := Store.write s.txBuf i.toNat b }) := by
  unfold execTxbWr at h
  split at h
  · exact .inl ⟨‹_›, (Host.Outcome.next.inj h).symm⟩
  · exact .inr ((storeTx_eq_next _ _ _ _).1 h)

/-- SendFrame emits its two transport writes and changes nothing else. -/
theorem sendFrame_eq_next (a c : Byte) (len : Nat) (s t : State) (h : sendFrame a c len s = .next t) :
    ∃ es, es.length = 2 ∧ t = s.emit es := by
  obtain ⟨payload, -, ht⟩ := (andThen_eq_next _ _ _).1 h
  exact ⟨_, rfl, (Host.Outcome.next.inj ht).symm⟩

/-- TX_SEND emits at most two events and changes nothing else. -/
theorem execTxSend_eq_next (a c : Byte) (len : Half) (s t : State) (h : execTxSend a c len s = .next t) :
    ∃ es, es.length ≤ 2 ∧ t = s.emit es := by
  unfold execTxSend at h
  split at h
  · exact ⟨[.txLenError], by simp, (Host.Outcome.next.inj h).symm⟩
  · obtain ⟨es, hlen, ht⟩ := sendFrame_eq_next _ _ _ _ _ h
    exact ⟨es, hlen.le, ht⟩

/-- A run of stores writes `TxBuf` alone. -/
theorem storeTxRun_frame (i : Nat) (bs : List Byte) (s t : State) (h : storeTxRun i bs s = .next t) :
    ∃ m, t = { s with txBuf := m } := by
  induction bs generalizing i s with
  | nil => exact ⟨s.txBuf, (Host.Outcome.next.inj h).symm⟩
  | cons b bs ih =>
    obtain ⟨u, hu, ht⟩ := (andThen_eq_next _ _ _).1 h
    obtain ⟨-, rfl⟩ := (storeTx_eq_next _ _ _ _).1 hu
    obtain ⟨m, rfl⟩ := ih _ _ ht
    exact ⟨m, rfl⟩

/-- The drain loop moves the tail and writes `TxBuf`. -/
theorem drainLoop_frame (n k : Nat) (s t : State) (h : drainLoop n k s = .next t) :
    ∃ q m, t = { s with qTail := q, txBuf := m } := by
  induction n generalizing k s with
  | zero => exact ⟨s.qTail, s.txBuf, (Host.Outcome.next.inj h).symm⟩
  | succ n ih =>
    obtain ⟨r, hr, ht⟩ := (andThen_eq_next _ _ _).1 h
    rcases popEntry_eq_next s r hr with ⟨-, rfl⟩ | ⟨-, -, rfl⟩
    · cases ht
    · obtain ⟨u, hu, hloop⟩ := (andThen_eq_next _ _ _).1 ht
      obtain ⟨m, rfl⟩ := storeTxRun_frame _ _ _ _ hu
      obtain ⟨q, m', rfl⟩ := ih _ _ hloop
      exact ⟨q, m', rfl⟩

/-- FRAME_TICK writes the tail, `TxBuf` and the idle-tick counter, and emits at most two events. -/
theorem execFrameTick_frame (s t : State) (h : execFrameTick s = .next t) :
    ∃ q m n es, es.length ≤ 2 ∧ t = State.emit { s with qTail := q, txBuf := m, idleTicks := n } es := by
  unfold execFrameTick at h
  split at h
  · simp only [idleTick] at h
    split at h
    · obtain ⟨u, hu, hsend⟩ := (andThen_eq_next _ _ _).1 h
      obtain ⟨-, rfl⟩ := (storeTx_eq_next _ _ _ _).1 hu
      obtain ⟨es, hlen, rfl⟩ := sendFrame_eq_next _ _ _ _ _ hsend
      exact ⟨s.qTail, _, _, es, hlen.le, rfl⟩
    · obtain rfl := Host.Outcome.next.inj h
      exact ⟨s.qTail, s.txBuf, s.idleTicks + 1, [], by simp, by rw [State.emit_nil]⟩
  · obtain ⟨u, hu, h'⟩ := (andThen_eq_next _ _ _).1 h
    obtain ⟨-, rfl⟩ := (storeTx_eq_next _ _ _ _).1 hu
    obtain ⟨v, hv, hsend⟩ := (andThen_eq_next _ _ _).1 h'
    obtain ⟨q, m, rfl⟩ := drainLoop_frame _ _ _ _ hv
    obtain ⟨es, hlen, rfl⟩ := sendFrame_eq_next _ _ _ _ _ hsend
    exact ⟨q, m, _, es, hlen.le, rfl⟩

/-! ### Every operation -/

/-- Settles O20: each operation's own lemma says which fields it can write. -/
theorem eachFieldIsWrittenOnlyByItsOperations : Obligations.EachFieldIsWrittenOnlyByItsOperations := by
  intro i s t h
  cases i with
  | rxByte b =>
    obtain ⟨st, a, c, l, i, k, m, n, es, -, rfl⟩ := execRxByte_frame b s t h
    simp [SameAddress, SameQueue, SameSurround]
  | qPush id v =>
    rcases execQPush_eq_next id v s t h with ⟨-, rfl⟩ | ⟨-, -, rfl⟩ <;>
      simp [SameReceive, SameAddress, SameSurround]
  | qPop =>
    rcases execQPop_eq_next s t h with ⟨-, rfl⟩ | ⟨-, -, rfl⟩ <;>
      simp [SameReceive, SameAddress, SameSurround]
  | qClear =>
    obtain rfl := Host.Outcome.next.inj h
    simp [SameReceive, SameAddress, SameSurround]
  | frameTick =>
    obtain ⟨q, m, n, es, -, rfl⟩ := execFrameTick_frame s t h
    simp [SameReceive, SameAddress, SameSurround]
  | setAddr a f =>
    obtain rfl := Host.Outcome.next.inj h
    simp [SameReceive, SameQueue, SameSurround]
  | txbWr k b =>
    rcases execTxbWr_eq_next k b s t h with ⟨-, rfl⟩ | ⟨-, rfl⟩ <;>
      simp [SameReceive, SameAddress, SameQueue, SameSurround]
  | txSend a c len =>
    obtain ⟨es, -, rfl⟩ := execTxSend_eq_next a c len s t h
    simp [SameReceive, SameAddress, SameQueue, SameSurround]

/-- No operation writes the parameters or the integrator's side. -/
theorem exec_sameSurround (i : Instr) (s t : State) (h : exec i s = .next t) : SameSurround s t := by
  obtain ⟨-, -, -, -, -, -, -, -, hsurround⟩ := eachFieldIsWrittenOnlyByItsOperations i s t h
  exact hsurround

/-- An operation appends at most two events, to `OUT` and to the untaken events alike. -/
theorem exec_log (i : Instr) (s t : State) (h : exec i s = .next t) :
    ∃ es, es.length ≤ 2 ∧ t.out = s.out ++ es ∧ t.untaken = s.untaken ++ es := by
  cases i with
  | rxByte b =>
    obtain ⟨_, _, _, _, _, _, _, _, es, hlen, rfl⟩ := execRxByte_frame b s t h
    exact ⟨es, hlen, rfl, rfl⟩
  | qPush id v =>
    rcases execQPush_eq_next id v s t h with ⟨-, rfl⟩ | ⟨-, -, rfl⟩ <;> exact ⟨[], by simp⟩
  | qPop =>
    rcases execQPop_eq_next s t h with ⟨-, rfl⟩ | ⟨-, -, rfl⟩
    · exact ⟨[.popEmpty], by simp⟩
    · exact ⟨[_], by simp, rfl, rfl⟩
  | qClear =>
    obtain rfl := Host.Outcome.next.inj h
    exact ⟨[], by simp⟩
  | frameTick =>
    obtain ⟨_, _, _, es, hlen, rfl⟩ := execFrameTick_frame s t h
    exact ⟨es, hlen, rfl, rfl⟩
  | setAddr a f =>
    obtain rfl := Host.Outcome.next.inj h
    exact ⟨[], by simp⟩
  | txbWr k b =>
    rcases execTxbWr_eq_next k b s t h with ⟨-, rfl⟩ | ⟨-, rfl⟩
    · exact ⟨[.txRangeError], by simp⟩
    · exact ⟨[], by simp⟩
  | txSend a c len =>
    obtain ⟨es, hlen, rfl⟩ := execTxSend_eq_next a c len s t h
    exact ⟨es, hlen, rfl, rfl⟩

/-! ### Every step -/

/-- A performed word is an operation, or it is illegal and only reported. -/
theorem performWord_eq_next (w : OpWord) (s t : State) (h : performWord w s = .next t) :
    (∃ i, decodeWord w = .operation i ∧ exec i s = .next t) ∨
      (∃ why, decodeWord w = .illegal why) ∧ t = s.emit [.illegalOp w] := by
  unfold performWord at h
  split at h
  · exact .inl ⟨_, ‹_›, h⟩
  · exact .inr ⟨⟨_, ‹_›⟩, (Host.Outcome.next.inj h).symm⟩

/-- Settles O18: a step takes an event, resets or performs a word, and none of these writes a parameter. -/
theorem noStepChangesAParameter : Obligations.NoStepChangesAParameter := by
  intro s t h
  obtain ⟨-, ⟨-, -, -, rfl⟩ | ⟨-, -, rfl⟩ | ⟨rest, -, -, rfl⟩ | ⟨w, rest, -, -, hperform⟩⟩ := step_eq_next s t h
  · obtain ⟨u, n, htake⟩ := s.takeOffered_eq
    rw [htake]
  · rfl
  · rfl
  · rcases performWord_eq_next w _ t hperform with ⟨i, -, hexec⟩ | ⟨-, rfl⟩
    · exact (exec_sameSurround i _ t hexec).1
    · rfl

/-- Settles O19: only a performed word emits, and it is performed only when nothing is untaken. -/
theorem logOnlyGrowsByOneOperation : Obligations.LogOnlyGrowsByOneOperation := by
  intro s t h
  obtain ⟨-, ⟨-, -, -, rfl⟩ | ⟨-, -, rfl⟩ | ⟨rest, -, -, rfl⟩ | ⟨w, rest, hu, -, hperform⟩⟩ := step_eq_next s t h
  · obtain ⟨u, n, htake⟩ := s.takeOffered_eq
    exact ⟨[], by simp [htake]⟩
  · exact ⟨[], by simp⟩
  · exact ⟨[], by simp⟩
  · rcases performWord_eq_next w _ t hperform with ⟨i, -, hexec⟩ | ⟨-, rfl⟩
    · obtain ⟨es, hlen, hout, huntaken⟩ := exec_log i _ t hexec
      exact ⟨es, hout, hlen, fun _ => ⟨hu, by simpa [hu] using huntaken⟩⟩
    · exact ⟨[.illegalOp w], by simp [hu]⟩

end Sys2Proof.Machine
end

