-- ==== Sys2Proof/Proofs/Status.lean ====
section
/-! SUPPORT. The status words field by field (spec/10_state.md R40, R41), the count they carry (R32), and both after a
reset (R50). -/

namespace Sys2Proof.Machine

/-- Settles O45: the count is a remainder modulo `UQ_CAPACITY + 1`. -/
theorem countStaysWithinTheCapacity : Obligations.CountStaysWithinTheCapacity :=
  fun s => ⟨Nat.le_of_lt_succ (qCount_lt s), length_absQueue s⟩

/-- A queue whose pointers are both 0 is empty. -/
theorem qCount_of_pointers_zero (s : State) (hh : s.qHead = 0) (ht : s.qTail = 0) : qCount s = 0 := by
  simp [qCount, hh, ht]

/-- QCOUNT holds the whole count: a valid capacity fits its eight bits (R40). -/
theorem toNat_ofNat_qCount (s : State) (hw : s.params.wellFormed = true) :
    (BitVec.ofNat 8 (qCount s)).toNat = qCount s := by
  obtain ⟨-, hcap, -⟩ := params_ranges _ hw
  have hle : qCount s ≤ s.params.uqCapacity := Nat.le_of_lt_succ (qCount_lt s)
  rw [BitVec.toNat_ofNat]
  exact Nat.mod_eq_of_lt (by omega)

/-! ### A bit of a concatenation -/

theorem getLsbD_append_of_le {m n i : Nat} (x : BitVec m) (y : BitVec n) (h : n ≤ i) :
    (x ++ y).getLsbD i = x.getLsbD (i - n) := by
  rw [BitVec.getLsbD_append, if_neg (by omega)]

theorem getLsbD_append_ofBool {m : Nat} (x : BitVec m) (f : Bool) : (x ++ BitVec.ofBool f).getLsbD 0 = f := by
  rw [BitVec.getLsbD_append, if_pos Nat.one_pos, BitVec.getLsbD_ofBool]
  simp

/-! ### The fields of STATUS0, from bit 0 up: drop the fields below, then read the lowest -/

theorem status0_rxs (s : State) : (status0 s).extractLsb' 0 3 = s.rxState.code :=
  BitVec.extractLsb'_append_eq_right

theorem status0_asg (s : State) : (status0 s).getLsbD 3 = s.addrAssigned := by
  rw [status0, getLsbD_append_of_le _ _ (by decide)]
  exact getLsbD_append_ofBool _ _

theorem status0_devaddr (s : State) : (status0 s).extractLsb' 4 8 = s.devAddr := by
  rw [status0]
  iterate 2 rw [BitVec.extractLsb'_append_eq_of_le (by decide)]
  exact BitVec.extractLsb'_append_eq_right

theorem status0_qcount (s : State) : (status0 s).extractLsb' 12 8 = BitVec.ofNat 8 (qCount s) := by
  rw [status0]
  iterate 3 rw [BitVec.extractLsb'_append_eq_of_le (by decide)]
  exact BitVec.extractLsb'_append_eq_right

theorem status0_qempty (s : State) : (status0 s).getLsbD 20 = qEmpty s := by
  rw [status0]
  iterate 4 rw [getLsbD_append_of_le _ _ (by decide)]
  exact getLsbD_append_ofBool _ _

theorem status0_qfull (s : State) : (status0 s).getLsbD 21 = qFull s := by
  rw [status0]
  iterate 5 rw [getLsbD_append_of_le _ _ (by decide)]
  exact getLsbD_append_ofBool _ _

theorem status0_zero (s : State) : (status0 s).extractLsb' 22 10 = 0 := by
  rw [status0]
  iterate 5 rw [BitVec.extractLsb'_append_eq_of_le (by decide)]
  exact BitVec.extractLsb'_append_eq_left

/-- Settles O23: each field is its piece of the word, and the codes are those of R23. -/
theorem statusZeroFields : Obligations.StatusZeroFields := by
  intro s hw
  have hcode (r : RxState) (h : s.rxState = r) : (status0 s).extractLsb' 0 3 = r.code := by rw [status0_rxs, h]
  exact ⟨hcode .idle, hcode .readAddress, hcode .readCommand, hcode .readLengthLow, hcode .readLengthHigh,
    hcode .readPayload, hcode .readCrc, status0_asg s, status0_devaddr s,
    by rw [status0_qcount, toNat_ofNat_qCount s hw, qCount],
    status0_qempty s, status0_qfull s, status0_zero s⟩

/-- Settles O24: the three pieces of the word, each after the ones below it are dropped. -/
theorem statusOneFields : Obligations.StatusOneFields := by
  intro s
  refine ⟨BitVec.extractLsb'_append_eq_right, ?_, ?_⟩ <;>
    rw [status1, BitVec.extractLsb'_append_eq_of_le (by decide)]
  · exact BitVec.extractLsb'_append_eq_right
  · exact BitVec.extractLsb'_append_eq_left

/-! ### After a reset -/

/-- Settles O13: only QEMPTY is set, for the capacity is at least 1 and the count is 0. -/
theorem statusAfterReset : Obligations.StatusAfterReset := by
  intro p hw
  obtain ⟨hcap, -⟩ := params_ranges p hw
  have hcount : qCount (State.powerOn p) = 0 := qCount_of_pointers_zero _ rfl rfl
  have hfull : qFull (State.powerOn p) = false := by
    simp only [qFull, hcount, State.powerOn_params, beq_eq_false_iff_ne]
    omega
  have hempty : qEmpty (State.powerOn p) = true := by simp [qEmpty, hcount]
  constructor
  · simp [status0, hfull, hempty, hcount, RxState.code]
  · simp [status1]

/-- Settles O9: the step applies the reset, whose fields are those of R50. -/
theorem resetSetsTheTableAndKeepsTheLog : Obligations.ResetSetsTheTableAndKeepsTheLog := by
  intro s rest hw hu hp
  have hstep : step s = .next (State.applyReset { s with port := rest }) := by
    simp [step, portStep, hw, hu, hp, acceptInput]
  have hcount : qCount (State.applyReset { s with port := rest }) = 0 := qCount_of_pointers_zero _ rfl rfl
  exact ⟨_, hstep, by simp [hcount]⟩

end Sys2Proof.Machine
end

