-- ==== Sys2Proof/Proofs/Invariant.lean ====
section
/-! SUPPORT. The invariant in four parts, each about fields of its own: an operation keeps a part whose fields it does
not write (spec/10_state.md R22), so each part has only its own writers to go through. -/

namespace Sys2Proof.Machine

/-! ### The four parts of the invariant -/

/-- The part of the invariant about the receive state (R29, spec/40_receive.md R125 to R127). -/
structure ReceiveInv (s : State) : Prop where
  rxBuf : Memory.wf s.rxBuf = true ∧ Store.within s.params.rxPayloadMax s.rxBuf = true
  byteCount : s.byteCount.toNat < s.params.syncBudget
  lengthHigh : s.rxState = .readLengthHigh → s.rxLen.toNat < 256
  payload : s.rxState = .readPayload →
    s.rxIdx.toNat < s.rxLen.toNat ∧ s.rxLen.toNat ≤ s.params.rxPayloadMax ∧ rxStored s s.rxIdx.toNat
  crc : s.rxState = .readCrc →
    s.rxIdx = s.rxLen ∧ s.rxLen.toNat ≤ s.params.rxPayloadMax ∧ rxStored s s.rxLen.toNat

/-- The part about the update queue (R31, U2). -/
structure QueueInv (s : State) : Prop where
  slots : Store.wf s.slots = true ∧ Store.within (ringSize s.params) s.slots = true
  qHead : s.qHead.toNat < ringSize s.params
  qTail : s.qTail.toNat < ringSize s.params
  live : ∀ k, k < qCount s → (Store.read s.slots ((s.qTail.toNat + k) % ringSize s.params)).isSome = true

/-- The part about the transmit state (R34, R35). -/
structure TransmitInv (s : State) : Prop where
  txBuf : Memory.wf s.txBuf = true ∧ Store.within s.params.txPayloadMax s.txBuf = true
  idleTicks : s.idleTicks.toNat < s.params.alivePeriod

/-- The part about the events (R232, R133). -/
def EventsInv (s : State) : Prop := s.untaken.length ≤ 2 ∧ ∃ taken, s.out = taken ++ s.untaken

theorem stateInv_iff (s : State) :
    StateInv s ↔ s.params.wellFormed = true ∧ ReceiveInv s ∧ QueueInv s ∧ TransmitInv s ∧ EventsInv s := by
  constructor
  · intro h
    exact ⟨h.params, ⟨h.rxBuf, h.byteCount, h.lengthHigh, h.payload, h.crc⟩, ⟨h.slots, h.qHead, h.qTail, h.live⟩,
      ⟨h.txBuf, h.idleTicks⟩, h.untaken⟩
  · rintro ⟨hw, hrx, hq, htx, hev⟩
    exact ⟨hw, hrx.rxBuf, htx.txBuf, hq.slots, hrx.byteCount, htx.idleTicks, hq.qHead, hq.qTail, hq.live,
      hrx.lengthHigh, hrx.payload, hrx.crc, hev⟩

/-! ### Each part depends on its own fields and the parameters -/

section Frame
variable {s t : State}

theorem ReceiveInv.of_same (h : ReceiveInv s) (hp : t.params = s.params) (hs : SameReceive s t) : ReceiveInv t := by
  obtain ⟨hst, -, -, hlen, hidx, -, hbuf, hcount⟩ := hs
  obtain ⟨h1, h2, h3, h4, h5⟩ := h
  constructor <;> simpa only [rxStored, hp, hst, hlen, hidx, hbuf, hcount]

theorem QueueInv.of_same (h : QueueInv s) (hp : t.params = s.params) (hs : SameQueue s t) : QueueInv t := by
  obtain ⟨hslots, hhead, htail⟩ := hs
  obtain ⟨h1, h2, h3, h4⟩ := h
  constructor <;> simpa only [qCount, hp, hslots, hhead, htail]

theorem TransmitInv.of_same (h : TransmitInv s) (hp : t.params = s.params) (hs : SameTransmit s t) :
    TransmitInv t := by
  obtain ⟨hbuf, hticks⟩ := hs
  obtain ⟨h1, h2⟩ := h
  constructor <;> simpa only [hp, hbuf, hticks]

end Frame

/-! ### After a reset -/

theorem receiveInv_powerOn (p : Params) (hw : p.wellFormed = true) : ReceiveInv (State.powerOn p) := by
  obtain ⟨-, -, -, -, -, -, hbudget, -⟩ := params_ranges p hw
  have hzero : 0 < p.syncBudget := Nat.zero_lt_of_lt hbudget
  exact ⟨⟨rfl, rfl⟩, hzero, nofun, nofun, nofun⟩

/-- With both pointers at 0 no slot is live. -/
theorem queueInv_of_pointers_zero (s : State)
    (hslots : Store.wf s.slots = true ∧ Store.within (ringSize s.params) s.slots = true) (hh : s.qHead = 0)
    (ht : s.qTail = 0) : QueueInv s := by
  have hpos : (0 : Byte).toNat < ringSize s.params := Nat.succ_pos _
  refine ⟨hslots, by rw [hh]; exact hpos, by rw [ht]; exact hpos, fun k hk => ?_⟩
  rw [qCount_of_pointers_zero s hh ht] at hk
  exact absurd hk (Nat.not_lt_zero k)

theorem queueInv_powerOn (p : Params) : QueueInv (State.powerOn p) :=
  queueInv_of_pointers_zero _ ⟨rfl, rfl⟩ rfl rfl

theorem transmitInv_powerOn (p : Params) (hw : p.wellFormed = true) : TransmitInv (State.powerOn p) := by
  obtain ⟨-, -, -, -, -, -, -, -, hperiod, -⟩ := params_ranges p hw
  exact ⟨⟨rfl, rfl⟩, hperiod⟩

/-- Settles O14: every part holds of the reset values, and no frame has begun. -/
theorem invariantHoldsAfterReset : Obligations.InvariantHoldsAfterReset := fun p hw =>
  ⟨(stateInv_iff _).2
    ⟨hw, receiveInv_powerOn p hw, queueInv_powerOn p, transmitInv_powerOn p hw, Nat.zero_le 2, [], rfl⟩, trivial⟩

/-- A reset gives the fields of R50 the values they have at power-on, and leaves the events. -/
theorem applyReset_keeps_inv (s : State) (h : StateInv s) : StateInv s.applyReset := by
  obtain ⟨hw, -, -, -, hev⟩ := (stateInv_iff s).1 h
  exact (stateInv_iff _).2 ⟨hw,
    (receiveInv_powerOn _ hw).of_same rfl ⟨rfl, rfl, rfl, rfl, rfl, rfl, rfl, rfl⟩,
    (queueInv_powerOn _).of_same rfl ⟨rfl, rfl, rfl⟩,
    (transmitInv_powerOn _ hw).of_same rfl ⟨rfl, rfl⟩, hev⟩

/-! ### The receive state -/

/-- Where a byte can take the decoder from the state `s`, and what it writes on the way (spec/40_receive.md R122 to
R128). -/
inductive DecoderMove (b : Byte) (s : State) : State → Prop where
  /-- No sync byte, a foreign address, an overlength frame, or the end of a frame. -/
  | toIdle (len idx : Half) (c : Byte) :
      DecoderMove b s { s with rxState := .idle, rxLen := len, rxIdx := idx, rxCrc := c }
  | toAddress (h : s.rxState = .idle) : DecoderMove b s { s with rxState := .readAddress }
  | toCommand (h : s.rxState = .readAddress) :
      DecoderMove b s
        { s with rxAddr := b, rxCrc := crc8Step s.params s.params.crcInit b, rxState := .readCommand }
  | toLengthLow (h : s.rxState = .readCommand) :
      DecoderMove b s { s with rxCmd := b, rxCrc := crc8Step s.params s.rxCrc b, rxState := .readLengthLow }
  | toLengthHigh (h : s.rxState = .readLengthLow) :
      DecoderMove b s
        { s with rxLen := b.setWidth 16, rxCrc := crc8Step s.params s.rxCrc b, rxState := .readLengthHigh }
  | toEmptyPayload (h : s.rxState = .readLengthHigh) (hlen : lengthOf b (lengthLow s.rxLen) = 0) :
      DecoderMove b s
        { s with rxLen := lengthOf b (lengthLow s.rxLen), rxCrc := crc8Step s.params s.rxCrc b, rxIdx := 0,
                 rxState := .readCrc }
  | toPayload (h : s.rxState = .readLengthHigh) (hlen : lengthOf b (lengthLow s.rxLen) ≠ 0)
      (hfits : (lengthOf b (lengthLow s.rxLen)).toNat ≤ s.params.rxPayloadMax) :
      DecoderMove b s
        { s with rxLen := lengthOf b (lengthLow s.rxLen), rxCrc := crc8Step s.params s.rxCrc b, rxIdx := 0,
                 rxState := .readPayload }
  | payloadByte (h : s.rxState = .readPayload) (hidx : s.rxIdx.toNat < s.params.rxPayloadMax) :
      DecoderMove b s
        { s with rxBuf := Store.write s.rxBuf s.rxIdx.toNat b, rxIdx := s.rxIdx + 1,
                 rxCrc := crc8Step s.params s.rxCrc b,
                 rxState := if s.rxIdx + 1 = s.rxLen then .readCrc else .readPayload }

/-- DecodeStep makes one of these moves. -/
theorem decodeStep_moves (b : Byte) (s : State) (r : RxResult) (h : decodeStep b s = .next r) :
    DecoderMove b s r.state := by
  unfold decodeStep at h
  cases hs : s.rxState <;> simp only [hs] at h
  case readPayload =>
    simp only [decodePayload, andThen_eq_next, storeRx_eq_next] at h
    obtain ⟨t, ⟨hidx, rfl⟩, ht⟩ := h
    obtain rfl := Host.Outcome.next.inj ht
    exact .payloadByte hs hidx
  case readCrc =>
    unfold decodeCrc at h
    split at h
    · split at h
      · obtain rfl := Host.Outcome.next.inj h
        exact .toIdle _ _ _
      · cases h
    · obtain rfl := Host.Outcome.next.inj h
      exact .toIdle _ _ _
  case idle =>
    obtain rfl := Host.Outcome.next.inj h
    unfold decodeIdle
    split
    · exact .toAddress hs
    · have := DecoderMove.toIdle (b := b) (s := s) s.rxLen s.rxIdx s.rxCrc
      rwa [← hs] at this
  case readAddress =>
    obtain rfl := Host.Outcome.next.inj h
    unfold decodeAddress
    split
    · exact .toCommand hs
    · exact .toIdle _ _ _
  case readCommand =>
    obtain rfl := Host.Outcome.next.inj h
    exact .toLengthLow hs
  case readLengthLow =>
    obtain rfl := Host.Outcome.next.inj h
    exact .toLengthHigh hs
  case readLengthHigh =>
    obtain rfl := Host.Outcome.next.inj h
    simp only [decodeLengthHigh]
    split
    · exact .toEmptyPayload hs ‹_›
    · split
      · exact .toIdle _ _ _
      · exact .toPayload hs ‹_› (by omega)

/-- Every move leaves the parameters. -/
theorem DecoderMove.params {b : Byte} {s t : State} (hmove : DecoderMove b s t) : t.params = s.params := by
  cases hmove <;> rfl

/-- Counting up below the width's range does not wrap. -/
theorem toNat_add_one {w : Nat} {a : BitVec w} (h : a.toNat + 1 < 2 ^ w) : (a + 1).toNat = a.toNat + 1 := by
  have hw : 0 < w := Nat.pos_of_ne_zero fun h0 => by subst h0; omega
  have hone : (1 : BitVec w).toNat = 1 := BitVec.toNat_one hw
  rw [BitVec.toNat_add, hone, Nat.mod_eq_of_lt h]

/-- After one more byte is stored, one more byte is stored. -/
theorem rxStored_write (s t : State) (i : Nat) (b : Byte) (hbuf : t.rxBuf = Store.write s.rxBuf i b)
    (h : rxStored s i) : rxStored t (i + 1) := by
  intro k hk
  rw [hbuf, Store.read_write]
  split
  · rfl
  · exact h k (by omega)

/-- Every move keeps the part of the invariant about the receive state. -/
theorem DecoderMove.keeps_receiveInv {b : Byte} {s t : State} (hmove : DecoderMove b s t) (h : ReceiveInv s) :
    ReceiveInv t := by
  cases hmove with
  | toIdle len idx c => exact ⟨h.rxBuf, h.byteCount, nofun, nofun, nofun⟩
  | toAddress hs => exact ⟨h.rxBuf, h.byteCount, nofun, nofun, nofun⟩
  | toCommand hs => exact ⟨h.rxBuf, h.byteCount, nofun, nofun, nofun⟩
  | toLengthLow hs => exact ⟨h.rxBuf, h.byteCount, nofun, nofun, nofun⟩
  | toLengthHigh hs =>
    have hlow : (b.setWidth 16).toNat < 256 := by
      rw [BitVec.toNat_setWidth_of_le (by decide)]
      exact b.isLt
    exact ⟨h.rxBuf, h.byteCount, fun _ => hlow, nofun, nofun⟩
  | toEmptyPayload hs hlen =>
    exact ⟨h.rxBuf, h.byteCount, nofun, nofun, fun _ => ⟨hlen.symm, by simp [hlen], by simp [rxStored, hlen]⟩⟩
  | toPayload hs hlen hfits =>
    have hpos : 0 < (lengthOf b (lengthLow s.rxLen)).toNat := Nat.pos_of_ne_zero fun h0 =>
      hlen (BitVec.eq_of_toNat_eq h0)
    exact ⟨h.rxBuf, h.byteCount, nofun, fun _ => ⟨hpos, hfits, by simp [rxStored]⟩, nofun⟩
  | payloadByte hs hidx =>
    obtain ⟨hlt, hfits, hstored⟩ := h.payload hs
    have hnext : (s.rxIdx + 1).toNat = s.rxIdx.toNat + 1 := toNat_add_one (by omega)
    have hbuf : Memory.wf (Store.write s.rxBuf s.rxIdx.toNat b) = true ∧
        Store.within s.params.rxPayloadMax (Store.write s.rxBuf s.rxIdx.toNat b) = true :=
      ⟨Store.wf_write _ _ _ h.rxBuf.1, Store.within_write _ _ _ _ hidx h.rxBuf.2⟩
    by_cases hlast : s.rxIdx + 1 = s.rxLen
    · simp only [hlast, if_true]
      refine ⟨hbuf, h.byteCount, nofun, nofun, fun _ => ⟨rfl, hfits, ?_⟩⟩
      simp only [← hlast, hnext]
      exact rxStored_write s _ _ b rfl hstored
    · simp only [hlast, if_false]
      have hne : (s.rxIdx + 1).toNat ≠ s.rxLen.toNat := fun he => hlast (BitVec.eq_of_toNat_eq he)
      refine ⟨hbuf, h.byteCount, nofun, fun _ => ⟨?_, hfits, ?_⟩, nofun⟩
      · simp only; omega
      · simp only [hnext]
        exact rxStored_write s _ _ b rfl hstored

/-- The guard keeps it too: the count restarts before it reaches the budget (R132). -/
theorem guardBytes_keeps_receiveInv (r : RxResult) (hw : r.state.params.wellFormed = true) (h : ReceiveInv r.state) :
    ReceiveInv (guardBytes r).1 := by
  obtain ⟨-, -, -, -, -, -, hlow, hhigh, -⟩ := params_ranges _ hw
  have hcount := h.byteCount
  have hzero : (0 : BitVec 12).toNat < r.state.params.syncBudget := Nat.zero_lt_of_lt hlow
  rcases guardBytes_cases r with ⟨-, hg⟩ | ⟨-, -, hg⟩ | ⟨-, hne, hg⟩ <;> rw [hg]
  · exact ⟨h.rxBuf, hzero, h.lengthHigh, h.payload, h.crc⟩
  · exact ⟨h.rxBuf, hzero, nofun, nofun, nofun⟩
  · refine ⟨h.rxBuf, ?_, h.lengthHigh, h.payload, h.crc⟩
    have hnext : (r.state.byteCount + 1).toNat = r.state.byteCount.toNat + 1 := toNat_add_one (by omega)
    simp only; omega

/-- RX_BYTE keeps it: one move, then the guard; the events are not part of it. -/
theorem execRxByte_keeps_receiveInv (b : Byte) (s t : State) (hw : s.params.wellFormed = true) (h : ReceiveInv s)
    (he : execRxByte b s = .next t) : ReceiveInv t := by
  obtain ⟨r, hd, hr⟩ := (andThen_eq_next _ _ _).1 he
  obtain rfl := Host.Outcome.next.inj hr
  have hmove := decodeStep_moves b s r hd
  have hw' : r.state.params.wellFormed = true := by rw [hmove.params, hw]
  have hguard := guardBytes_keeps_receiveInv r hw' (hmove.keeps_receiveInv h)
  exact hguard.of_same rfl ⟨rfl, rfl, rfl, rfl, rfl, rfl, rfl, rfl⟩

/-! ### The update queue -/

/-- Moving the tail on by at most the count keeps the part about the queue: what stays was there before. -/
theorem QueueInv.advance {s : State} (hc : s.params.uqCapacity ≤ 255) (h : QueueInv s) (n : Nat) (hn : n ≤ qCount s) :
    QueueInv { s with qTail := BitVec.ofNat 8 ((s.qTail.toNat + n) % ringSize s.params) } := by
  have hlt : (s.qTail.toNat + n) % ringSize s.params < ringSize s.params := Nat.mod_lt _ (Nat.succ_pos _)
  have htail : (BitVec.ofNat 8 ((s.qTail.toNat + n) % ringSize s.params)).toNat =
      (s.qTail.toNat + n) % ringSize s.params := by
    rw [BitVec.toNat_ofNat]
    exact Nat.mod_eq_of_lt (by unfold ringSize at *; omega)
  have hcount : qCount { s with qTail := BitVec.ofNat 8 ((s.qTail.toNat + n) % ringSize s.params) } = qCount s - n := by
    rw [← length_absQueue, absQueue_drained n s hc h.qHead h.qTail hn, List.length_drop, length_absQueue]
  refine ⟨h.slots, h.qHead, by simpa only [htail] using hlt, fun k hk => ?_⟩
  have hk' : n + k < qCount s := by omega
  have := h.live (n + k) hk'
  simpa only [htail, Nat.mod_add_mod, Nat.add_assoc] using this

/-- A push on a queue that is not full keeps it: the slot it writes joins the live ones. -/
theorem QueueInv.push {s : State} (hc : s.params.uqCapacity ≤ 255) (h : QueueInv s)
    (hfull : qCount s ≠ s.params.uqCapacity) (e : Entry) :
    QueueInv { s with slots := Store.write s.slots s.qHead.toNat e, qHead := ringNext s s.qHead } := by
  have hcount := qCount_push s (Store.write s.slots s.qHead.toNat e) hc h.qHead h.qTail hfull
  refine ⟨⟨Store.wf_write _ _ _ h.slots.1, Store.within_write _ _ _ _ h.qHead h.slots.2⟩, ?_, h.qTail, fun k hk => ?_⟩
  · simp only [ringNext_toNat s s.qHead hc]
    exact Nat.mod_lt _ (Nat.succ_pos _)
  · simp only [Store.read_write]
    split
    · rfl
    · rename_i hother
      have hne : k ≠ qCount s := fun hk' => hother (by simp only [hk', ring_head s h.qHead h.qTail])
      exact h.live k (by omega)

/-! ### The ticks -/

/-- FRAME_TICK keeps both parts it writes in: the count of idle ticks restarts at the period, and the entries that leave
the queue fit the buffer (R193). -/
theorem execFrameTick_keeps_inv (s t : State) (h : StateInv s) (he : execFrameTick s = .next t) :
    QueueInv t ∧ TransmitInv t := by
  obtain ⟨hw, -, hq, htx, -⟩ := (stateInv_iff s).1 h
  obtain ⟨-, hcap, hsix, hbudget, -, -, -, -, hlow, hhigh⟩ := params_ranges _ hw
  have hzero : (0 : Half).toNat < s.params.alivePeriod := hlow
  have hbuffer : 0 < s.params.txPayloadMax := by omega
  have hticks := htx.idleTicks
  by_cases hempty : qEmpty s = true
  · rw [execFrameTick, if_pos hempty] at he
    by_cases halive : (s.idleTicks + 1).toNat = s.params.alivePeriod
    · rw [idleTick_alive s hw halive] at he
      obtain rfl := Host.Outcome.next.inj he
      exact ⟨hq.of_same rfl ⟨rfl, rfl, rfl⟩,
        ⟨Store.wf_write _ _ _ htx.txBuf.1, Store.within_write _ _ _ _ hbuffer htx.txBuf.2⟩, hzero⟩
    · rw [idleTick_counts s halive] at he
      obtain rfl := Host.Outcome.next.inj he
      have hnext : (s.idleTicks + 1).toNat = s.idleTicks.toNat + 1 := toNat_add_one (by omega)
      exact ⟨hq.of_same rfl ⟨rfl, rfl, rfl⟩, htx.txBuf, by simp only; omega⟩
  · obtain ⟨-, -, hfits⟩ := updMax_ranges _ hw
    rw [execFrameTick, if_neg hempty, drainTick_sends s hw hq.qHead hq.qTail _ rfl _ rfl] at he
    obtain rfl := Host.Outcome.next.inj he
    have hlen : 0 + (dataUpdatePayload ((absQueue s).take (min (qCount s) (updMax s.params)))).length ≤
        s.params.txPayloadMax := by
      rw [Nat.zero_add, length_dataUpdatePayload, List.length_take]
      omega
    exact ⟨(hq.advance hcap _ (Nat.min_le_left _ _)).of_same rfl ⟨rfl, rfl, rfl⟩,
      ⟨Store.wf_writeRun _ _ _ htx.txBuf.1, Store.within_writeRun _ _ _ _ hlen htx.txBuf.2⟩, hzero⟩

/-! ### Every operation -/

/-- RX_BYTE is the only writer of the receive state. -/
theorem exec_keeps_receiveInv (i : Instr) (s t : State) (h : StateInv s) (he : exec i s = .next t) :
    ReceiveInv t := by
  obtain ⟨hw, hrx, -⟩ := (stateInv_iff s).1 h
  obtain ⟨hreceive, -, -, -, -, -, -, -, hp, -⟩ := eachFieldIsWrittenOnlyByItsOperations i s t he
  cases i with
  | rxByte b => exact execRxByte_keeps_receiveInv b s t hw hrx he
  | _ => exact hrx.of_same hp (hreceive nofun)

/-- Q_PUSH, Q_POP, Q_CLEAR and FRAME_TICK are the only writers of the queue. -/
theorem exec_keeps_queueInv (i : Instr) (s t : State) (h : StateInv s) (he : exec i s = .next t) : QueueInv t := by
  obtain ⟨hw, -, hq, -⟩ := (stateInv_iff s).1 h
  obtain ⟨-, hcap, -⟩ := params_ranges _ hw
  obtain ⟨-, -, hqueue, -, -, -, -, -, hp, -⟩ := eachFieldIsWrittenOnlyByItsOperations i s t he
  cases i with
  | qPush id v =>
    rcases execQPush_eq_next id v s t he with ⟨-, rfl⟩ | ⟨hfull, -, rfl⟩
    · exact hq
    · exact hq.push hcap hfull ⟨id, v⟩
  | qPop =>
    rcases execQPop_eq_next s t he with ⟨-, rfl⟩ | ⟨hne, -, rfl⟩
    · exact hq.of_same rfl ⟨rfl, rfl, rfl⟩
    · exact (hq.advance hcap 1 (by omega)).of_same rfl ⟨rfl, rfl, rfl⟩
  | qClear =>
    obtain rfl := Host.Outcome.next.inj he
    exact queueInv_of_pointers_zero _ hq.slots rfl rfl
  | frameTick => exact (execFrameTick_keeps_inv s t h he).1
  | _ => exact hq.of_same hp (hqueue nofun nofun nofun nofun)

/-- TXB_WR and FRAME_TICK are the only writers of the transmit state. -/
theorem exec_keeps_transmitInv (i : Instr) (s t : State) (h : StateInv s) (he : exec i s = .next t) :
    TransmitInv t := by
  obtain ⟨-, -, -, htx, -⟩ := (stateInv_iff s).1 h
  obtain ⟨-, -, -, -, -, -, hbuf, hticks, hp, -⟩ := eachFieldIsWrittenOnlyByItsOperations i s t he
  cases i with
  | txbWr k b =>
    rcases execTxbWr_eq_next k b s t he with ⟨-, rfl⟩ | ⟨hk, rfl⟩
    · exact htx.of_same rfl ⟨rfl, rfl⟩
    · exact ⟨⟨Store.wf_write _ _ _ htx.txBuf.1, Store.within_write _ _ _ _ hk htx.txBuf.2⟩, htx.idleTicks⟩
  | frameTick => exact (execFrameTick_keeps_inv s t h he).2
  | _ => exact htx.of_same hp ⟨hbuf nofun nofun, hticks nofun⟩

/-- Events emitted where nothing was untaken are the last of `OUT`. -/
theorem eventsInv_of_append (s t : State) (es : List Event) (hu : s.untaken = []) (hlen : es.length ≤ 2)
    (hout : t.out = s.out ++ es) (huntaken : t.untaken = s.untaken ++ es) : EventsInv t := by
  rw [hu, List.nil_append] at huntaken
  exact ⟨by rw [huntaken]; exact hlen, s.out, by rw [huntaken]; exact hout⟩

/-- An operation started with nothing untaken keeps the invariant. -/
theorem exec_keeps_inv (i : Instr) (s t : State) (h : StateInv s) (hu : s.untaken = []) (he : exec i s = .next t) :
    StateInv t := by
  obtain ⟨es, hlen, hout, huntaken⟩ := exec_log i s t he
  exact (stateInv_iff t).2 ⟨by rw [(exec_sameSurround i s t he).1]; exact h.params, exec_keeps_receiveInv i s t h he,
    exec_keeps_queueInv i s t h he, exec_keeps_transmitInv i s t h he, eventsInv_of_append s t es hu hlen hout huntaken⟩

/-! ### Every step -/

/-- The interface of the block may change in any way that leaves the untaken events the last of `OUT`. -/
theorem StateInv.with_interface {s : State} (h : StateInv s) (out untaken : List Event) (takes : Nat)
    (port : List PortInput) (hev : untaken.length ≤ 2 ∧ ∃ taken, out = taken ++ untaken) :
    StateInv { s with out := out, untaken := untaken, takes := takes, port := port } :=
  ⟨h.params, h.rxBuf, h.txBuf, h.slots, h.byteCount, h.idleTicks, h.qHead, h.qTail, h.live, h.lengthHigh, h.payload,
    h.crc, hev⟩

/-- Taking an event keeps the invariant: it moves from the untaken events to the taken ones. -/
theorem takeOffered_keeps_inv (s : State) (h : StateInv s) : StateInv s.takeOffered := by
  obtain ⟨hlen, taken, hout⟩ := h.untaken
  unfold State.takeOffered
  split
  · rename_i n e es _ hu
    rw [hu] at hlen hout
    exact h.with_interface s.out es n s.port ⟨Nat.le_of_succ_le hlen, taken ++ [e], by simpa using hout⟩
  · exact h

/-- An illegal word with nothing untaken keeps the invariant: it is only reported. -/
theorem emit_illegalOp_keeps_inv (s : State) (w : OpWord) (h : StateInv s) (hu : s.untaken = []) :
    StateInv (s.emit [.illegalOp w]) :=
  h.with_interface _ _ s.takes s.port (eventsInv_of_append s (s.emit [.illegalOp w]) [.illegalOp w] hu (Nat.le_succ 1) rfl rfl)

/-- Settles O15: an event taken, a reset, an operation and an illegal word each keep the invariant. -/
theorem stepKeepsTheInvariant : Obligations.StepKeepsTheInvariant := by
  intro s t h hstep
  obtain ⟨-, ⟨-, -, -, rfl⟩ | ⟨-, -, rfl⟩ | ⟨rest, -, -, rfl⟩ | ⟨w, rest, hu, -, hperform⟩⟩ := step_eq_next s t hstep
  · exact takeOffered_keeps_inv s h
  · exact h
  · exact applyReset_keeps_inv _ (h.with_interface s.out s.untaken s.takes rest h.untaken)
  · have hrest := h.with_interface s.out s.untaken s.takes rest h.untaken
    rcases performWord_eq_next w _ t hperform with ⟨i, -, hexec⟩ | ⟨-, rfl⟩
    · exact exec_keeps_inv i _ t hrest hu hexec
    · exact emit_illegalOp_keeps_inv _ w hrest hu

end Sys2Proof.Machine
end

