-- ==== Sys2Proof/Proofs/RunningCrc.lean ====
section
/-! SUPPORT. The running CRC (spec/10_state.md R27): each of the decoder's moves feeds the register the byte it takes
in, and nothing else writes a field that the register is compared with. -/

namespace Sys2Proof.Machine

/-! ### The bytes of `RxBuf` -/

/-- They depend on `RxBuf` and the number of the free values alone. -/
theorem rxBufBytes_congr (s t : State) (n : Nat) (hbuf : t.rxBuf = s.rxBuf) (hr : t.resets = s.resets) :
    rxBufBytes t n = rxBufBytes s n := by
  simp [rxBufBytes, rxBufByte, hbuf, hr]

/-- Storing the byte after the first `n` appends it. -/
theorem rxBufBytes_write (s t : State) (n : Nat) (b : Byte) (hbuf : t.rxBuf = Store.write s.rxBuf n b)
    (hr : t.resets = s.resets) : rxBufBytes t (n + 1) = rxBufBytes s n ++ [b] := by
  have hsame : ∀ i ∈ List.range n, rxBufByte t i = rxBufByte s i := fun i hi => by
    have hne : i ≠ n := (List.mem_range.1 hi).ne
    rw [rxBufByte, rxBufByte, hbuf, hr, Store.read_write_other _ _ _ _ hne]
  have hnew : rxBufByte t n = b := by rw [rxBufByte, hbuf, Store.read_write_self, Option.getD_some]
  rw [rxBufBytes, List.range_succ, List.map_append, List.map_congr_left hsame, List.map_singleton, hnew, rxBufBytes]

/-! ### RX_BYTE -/

/-- Every move keeps the register equal to the CRC of the bytes so far. -/
theorem DecoderMove.keeps_crcTracks {b : Byte} {s t : State} (hmove : DecoderMove b s t) (hinv : ReceiveInv s)
    (h : CrcTracks s) : CrcTracks t := by
  cases hmove with
  | toIdle len idx c => trivial
  | toAddress hs => trivial
  | toCommand hs => simp [CrcTracks]
  | toLengthLow hs =>
    simp only [CrcTracks, hs] at h
    simp [CrcTracks, h]
  | toLengthHigh hs =>
    simp only [CrcTracks, hs] at h
    simp [CrcTracks, h]
  | toEmptyPayload hs hlen =>
    simp only [CrcTracks, hs] at h
    have hnone : (lengthOf b (lengthLow s.rxLen)).toNat = 0 := by simp [hlen]
    simp [CrcTracks, h, hnone, rxBufBytes]
  | toPayload hs hlen hfits =>
    simp only [CrcTracks, hs] at h
    simp [CrcTracks, h, rxBufBytes]
  | payloadByte hs hidx =>
    simp only [CrcTracks, hs] at h
    obtain ⟨hlt, -, -⟩ := hinv.payload hs
    have hnext : (s.rxIdx + 1).toNat = s.rxIdx.toNat + 1 := toNat_add_one (by omega)
    have hrun (t : State) (hbuf : t.rxBuf = Store.write s.rxBuf s.rxIdx.toNat b) (hr : t.resets = s.resets) :
        crc8Step s.params s.rxCrc b = crcRun s.params s.params.crcInit
          ([s.rxAddr, s.rxCmd, lengthLow s.rxLen, lengthHigh s.rxLen] ++ rxBufBytes t (s.rxIdx.toNat + 1)) := by
      rw [rxBufBytes_write s t _ b hbuf hr, ← List.append_assoc, crcRun_append, ← h]
      rfl
    by_cases hlast : s.rxIdx + 1 = s.rxLen
    · have hlen : s.rxLen.toNat = s.rxIdx.toNat + 1 := by rw [← hlast, hnext]
      simp only [hlast, if_true, CrcTracks, hlen]
      exact hrun _ rfl rfl
    · simp only [hlast, if_false, CrcTracks, hnext]
      exact hrun _ rfl rfl

/-- The guard leaves the frame's fields, or abandons the frame. -/
theorem guardBytes_keeps_crcTracks (r : RxResult) (h : CrcTracks r.state) : CrcTracks (guardBytes r).1 := by
  rcases guardBytes_cases r with ⟨-, hg⟩ | ⟨-, -, hg⟩ | ⟨-, -, hg⟩ <;> rw [hg]
  · exact h
  · trivial
  · exact h

theorem execRxByte_keeps_crcTracks (b : Byte) (s t : State) (hinv : ReceiveInv s) (h : CrcTracks s)
    (he : execRxByte b s = .next t) : CrcTracks t := by
  obtain ⟨r, hd, hr⟩ := (andThen_eq_next _ _ _).1 he
  obtain rfl := Host.Outcome.next.inj hr
  exact guardBytes_keeps_crcTracks r ((decodeStep_moves b s r hd).keeps_crcTracks hinv h)

/-! ### Every operation and every step -/

/-- The relation depends on the receive state, the parameters and the number of the free values alone. -/
theorem CrcTracks.of_same {s t : State} (h : CrcTracks s) (hp : t.params = s.params) (hr : t.resets = s.resets)
    (hs : SameReceive s t) : CrcTracks t := by
  obtain ⟨hst, haddr, hcmd, hlen, hidx, hcrc, hbuf, -⟩ := hs
  simpa only [CrcTracks, hp, hst, haddr, hcmd, hlen, hidx, hcrc, rxBufBytes_congr s t _ hbuf hr] using h

/-- RX_BYTE is the only writer of the receive state. -/
theorem exec_keeps_crcTracks (i : Instr) (s t : State) (hinv : ReceiveInv s) (h : CrcTracks s)
    (he : exec i s = .next t) : CrcTracks t := by
  obtain ⟨hreceive, -, -, -, -, -, -, -, hp, -, -, hr⟩ := eachFieldIsWrittenOnlyByItsOperations i s t he
  cases i with
  | rxByte b => exact execRxByte_keeps_crcTracks b s t hinv h he
  | _ => exact h.of_same hp hr (hreceive nofun)

/-- Settles O16: a reset and a move to `Idle` end the frame; every other step feeds the register or leaves the frame. -/
theorem stepKeepsTheRunningCrc : Obligations.StepKeepsTheRunningCrc := by
  intro s t hinv h hstep
  obtain ⟨-, ⟨-, -, -, rfl⟩ | ⟨-, -, rfl⟩ | ⟨rest, -, -, rfl⟩ | ⟨w, rest, -, -, hperform⟩⟩ := step_eq_next s t hstep
  · obtain ⟨u, n, htake⟩ := s.takeOffered_eq
    rw [htake]
    exact h
  · exact h
  · trivial
  · obtain ⟨-, hrx, -⟩ := (stateInv_iff _).1 (hinv.with_interface s.out s.untaken s.takes rest hinv.untaken)
    rcases performWord_eq_next w _ t hperform with ⟨i, -, hexec⟩ | ⟨-, rfl⟩
    · exact exec_keeps_crcTracks i _ t hrx h hexec
    · exact h

end Sys2Proof.Machine
end

