-- ==== Sys2Proof/Proofs/ReadBy.lean ====
section
/-! SUPPORT. RX_BYTE reads the receive and the address state alone (spec/10_state.md R22): in another block with the
same ones it does the same. -/

namespace Sys2Proof.Machine

/-- The block `s` with the queue, the transmit state, the events and the integrator's side of the block `u`. -/
def State.withRestOf (s u : State) : State :=
  { s with
    slots := u.slots, qHead := u.qHead, qTail := u.qTail, txBuf := u.txBuf, idleTicks := u.idleTicks
    out := u.out, untaken := u.untaken, port := u.port, takes := u.takes }

/-- The same result in a block with the rest of `u`. -/
def RxResult.withRestOf (r : RxResult) (u : State) : RxResult := ⟨r.state.withRestOf u, r.events, r.validated⟩

/-- A block that agrees with `s` on what RX_BYTE reads is `s` with its own rest. -/
theorem eq_withRestOf (s u : State) (hp : u.params = s.params) (hr : u.resets = s.resets) (hrx : SameReceive s u)
    (haddr : SameAddress s u) : u = s.withRestOf u := by
  obtain ⟨h1, h2, h3, h4, h5, h6, h7, h8⟩ := hrx
  obtain ⟨h9, h10⟩ := haddr
  cases u
  simp_all [State.withRestOf]

/-! ### The decoder does not see the rest -/

theorem andThen_ite {α β : Type} (c : Prop) [Decidable c] (o o' : Host.Outcome α Fault Refusal)
    (f : α → Host.Outcome β Fault Refusal) :
    andThen (if c then o else o') f = if c then andThen o f else andThen o' f :=
  apply_ite (andThen · f) c o o'

section Decoder
variable (b : Byte) (s u : State)

theorem decodeIdle_withRestOf : decodeIdle b (s.withRestOf u) = (decodeIdle b s).withRestOf u := by
  by_cases h : b = s.params.syncByte <;> simp [decodeIdle, RxResult.withRestOf, State.withRestOf, h]

theorem decodeAddress_withRestOf : decodeAddress b (s.withRestOf u) = (decodeAddress b s).withRestOf u := by
  simp only [decodeAddress, apply_ite (RxResult.withRestOf · u)]
  rfl

theorem decodeLengthHigh_withRestOf : decodeLengthHigh b (s.withRestOf u) = (decodeLengthHigh b s).withRestOf u := by
  simp only [decodeLengthHigh, apply_ite (RxResult.withRestOf · u)]
  rfl

theorem decodePayload_withRestOf :
    decodePayload b (s.withRestOf u) = andThen (decodePayload b s) fun r => .next (r.withRestOf u) := by
  simp only [decodePayload, storeRx, andThen_ite]
  rfl

theorem decodeCrc_withRestOf :
    decodeCrc b (s.withRestOf u) = andThen (decodeCrc b s) fun r => .next (r.withRestOf u) := by
  simp only [decodeCrc, andThen_ite]
  rfl

theorem decodeStep_withRestOf :
    decodeStep b (s.withRestOf u) = andThen (decodeStep b s) fun r => .next (r.withRestOf u) := by
  have hst : (s.withRestOf u).rxState = s.rxState := rfl
  unfold decodeStep
  rw [hst]
  cases s.rxState with
  | idle => exact congrArg _ (decodeIdle_withRestOf b s u)
  | readAddress => exact congrArg _ (decodeAddress_withRestOf b s u)
  | readCommand => rfl
  | readLengthLow => rfl
  | readLengthHigh => exact congrArg _ (decodeLengthHigh_withRestOf b s u)
  | readPayload => exact decodePayload_withRestOf b s u
  | readCrc => exact decodeCrc_withRestOf b s u

end Decoder

theorem guardBytes_withRestOf (r : RxResult) (u : State) :
    guardBytes (r.withRestOf u) = ((guardBytes r).1.withRestOf u, (guardBytes r).2) := by
  cases hv : r.validated <;> by_cases hc : (r.state.byteCount + 1).toNat = r.state.params.syncBudget <;>
    simp only [guardBytes, RxResult.withRestOf, State.withRestOf, hv, hc, reduceIte, Bool.false_eq_true]

/-- RX_BYTE does the same in a block with the rest of `u`, up to that rest and the log it appends to. -/
theorem execRxByte_withRestOf (b : Byte) (s t u : State) (h : execRxByte b s = .next t) :
    ∃ v es, t = State.emit v es ∧ v.out = s.out ∧ execRxByte b (s.withRestOf u) = .next ((v.withRestOf u).emit es) := by
  obtain ⟨r, hd, ht⟩ := (andThen_eq_next _ _ _).1 h
  obtain rfl := Host.Outcome.next.inj ht
  refine ⟨(guardBytes r).1, (guardBytes r).2, rfl, ?_, ?_⟩
  · obtain ⟨⟨_, _, _, _, _, _, _, hst⟩, -⟩ := decodeStep_eq_next b s r hd
    have hout : r.state.out = s.out := by rw [hst]
    rcases guardBytes_cases r with ⟨-, hg⟩ | ⟨-, -, hg⟩ | ⟨-, -, hg⟩ <;> rw [hg, ← hout]
  · rw [execRxByte, decodeStep_withRestOf, hd, andThen_next, andThen_next, guardBytes_withRestOf]

/-- Settles O39: the second block is the first with another rest. -/
theorem decoderSeesOnlyReceiveAndAddressState : Obligations.DecoderSeesOnlyReceiveAndAddressState := by
  intro s s' t b hp hr hrx haddr h
  obtain ⟨v, es, rfl, hout, h'⟩ := execRxByte_withRestOf b s t s' h
  rw [← eq_withRestOf s s' hp hr hrx haddr] at h'
  refine ⟨_, h', ⟨rfl, rfl, rfl, rfl, rfl, rfl, rfl, rfl⟩, ?_⟩
  rw [newEvents_of_append s (v.emit es) es (by rw [State.emit_out, hout])]
  exact newEvents_of_append _ _ es rfl

end Sys2Proof.Machine
end

