-- ==== Sys2Proof/Proofs/Idempotence.lean ====
section
/-! SUPPORT. The operations of spec/20_memory.md R64 that change nothing more when they are performed again. -/

namespace Sys2Proof.Machine

/-- TXB_WR inside the buffer writes its one byte and does nothing else (spec/42_transmit.md R191). -/
theorem exec_txbWr_of_lt (s : State) (i : Half) (b : Byte) (h : i.toNat < s.params.txPayloadMax) :
    exec (.txbWr i b) s = .next { s with txBuf := Store.write s.txBuf i.toNat b } :=
  (if_neg (Nat.not_le.2 h)).trans ((storeTx_eq_next _ _ _ _).2 ⟨h, rfl⟩)

/-- The second TXB_WR finds the same buffer size and writes the same byte at the same index. -/
theorem exec_txbWr_twice (s : State) (i : Half) (b : Byte) (h : i.toNat < s.params.txPayloadMax) :
    andThen (exec (.txbWr i b) s) (exec (.txbWr i b)) = exec (.txbWr i b) s := by
  rw [exec_txbWr_of_lt s i b h, andThen_next,
    exec_txbWr_of_lt { s with txBuf := Store.write s.txBuf i.toNat b } i b h, Store.write_write]

/-- Settles O54: SET_ADDR and Q_CLEAR assign values that do not depend on the state, and TXB_WR writes one byte again. -/
theorem idempotentOperations : Obligations.IdempotentOperations :=
  ⟨fun _ _ _ => rfl, exec_txbWr_twice, fun _ => rfl⟩

end Sys2Proof.Machine
end

