-- ==== Sys2Proof/Proofs/Encoding.lean ====
section
/-! SUPPORT. The words of the instructions (spec/30_encoding.md R81 to R84): decoding to an instruction, being its
word, and carrying its row's opcode, its must-be-zero bits and its operands are one and the same. -/

namespace Sys2Proof

open Laws.WordForm

/-! ### The fields of a word as numbers -/

theorem a8Field_toNat (w : OpWord) : (a8Field w).toNat = w.toNat / 16 % 256 := by
  simp [a8Field, BitVec.extractLsb'_toNat, Nat.shiftRight_eq_div_pow]

theorem v32Field_toNat (w : OpWord) : (v32Field w).toNat = w.toNat / 4096 % 2 ^ 32 := by
  simp [v32Field, BitVec.extractLsb'_toNat, Nat.shiftRight_eq_div_pow]

theorem s1Field_eq_iff (w : OpWord) (f : Bool) : s1Field w = f ↔ w.toNat / 4096 % 2 = f.toNat := by
  have hnat : (s1Field w).toNat = w.toNat / 4096 % 2 := by
    rw [s1Field, ← BitVec.testBit_toNat, Nat.toNat_testBit]
  rw [← hnat]
  cases s1Field w <;> cases f <;> decide

theorem i16Field_toNat (w : OpWord) : (i16Field w).toNat = w.toNat / 4096 % 2 ^ 16 := by
  simp [i16Field, BitVec.extractLsb'_toNat, Nat.shiftRight_eq_div_pow]

theorem b8Field_toNat (w : OpWord) : (b8Field w).toNat = w.toNat / 4096 % 256 := by
  simp [b8Field, BitVec.extractLsb'_toNat, Nat.shiftRight_eq_div_pow]

theorem l16Field_toNat (w : OpWord) : (l16Field w).toNat = w.toNat / 2 ^ 20 % 2 ^ 16 := by
  simp [l16Field, BitVec.extractLsb'_toNat, Nat.shiftRight_eq_div_pow]

/-! ### Rows -/

/-- The word carries the row's opcode, and no bit at or above the fields of the row's format (R81). -/
def OpcodeRow.Fits (r : OpcodeRow) (w : OpWord) : Prop :=
  w.toNat % 16 = r.opcode ∧ w.toNat < 2 ^ r.format.usedBits

/-- An instruction's row of the opcode map. -/
def Instr.row : Instr → OpcodeRow
  | .rxByte _ => opcodeRows[0]
  | .qPush _ _ => opcodeRows[1]
  | .qPop => opcodeRows[2]
  | .qClear => opcodeRows[3]
  | .frameTick => opcodeRows[4]
  | .setAddr _ _ => opcodeRows[5]
  | .txbWr _ _ => opcodeRows[6]
  | .txSend _ _ _ => opcodeRows[7]

/-- The operands stand in the word's fields (R81). -/
def Instr.OperandsIn (w : OpWord) : Instr → Prop
  | .rxByte b => a8Field w = b
  | .qPush id v => a8Field w = id ∧ v32Field w = v
  | .qPop => True
  | .qClear => True
  | .frameTick => True
  | .setAddr a f => a8Field w = a ∧ s1Field w = f
  | .txbWr i b => i16Field w = i ∧ a8Field w = b
  | .txSend a c len => a8Field w = a ∧ b8Field w = c ∧ l16Field w = len

theorem Instr.row_mem (i : Instr) : i.row ∈ opcodeRows := by
  cases i <;> exact List.getElem_mem _

@[simp] theorem Instr.row_mnemonic (i : Instr) : i.row.mnemonic = i.mnemonic := by
  cases i <;> rfl

/-- Every row is the row of an instruction, with the operands that the word at hand holds. -/
theorem exists_instr_of_row (w : OpWord) : ∀ r ∈ opcodeRows, ∃ i : Instr, i.row = r ∧ i.OperandsIn w := by
  simp only [opcodeRows, List.forall_mem_cons]
  exact ⟨⟨.rxByte _, rfl, rfl⟩, ⟨.qPush _ _, rfl, rfl, rfl⟩, ⟨.qPop, rfl, trivial⟩, ⟨.qClear, rfl, trivial⟩,
    ⟨.frameTick, rfl, trivial⟩, ⟨.setAddr _ _, rfl, rfl, rfl⟩, ⟨.txbWr _ _, rfl, rfl, rfl⟩,
    ⟨.txSend _ _ _, rfl, rfl, rfl, rfl⟩, nofun⟩

theorem row_eq_of_mnemonic_eq : ∀ r ∈ opcodeRows, ∀ r' ∈ opcodeRows, r.mnemonic = r'.mnemonic → r = r' := by decide

theorem row_eq_of_opcode_eq : ∀ r ∈ opcodeRows, ∀ r' ∈ opcodeRows, r.opcode = r'.opcode → r = r' := by decide

/-- Every row's match is its opcode, and its mask is the opcode's bits and those above its format's fields (R82). -/
theorem row_pattern_and_mask : ∀ r ∈ opcodeRows,
    r.pattern = BitVec.ofNat 48 r.opcode ∧ r.mask = 0xF ||| BitVec.allOnes 48 <<< r.format.usedBits ∧
      0 < r.opcode ∧ r.opcode < 9 ∧ 4 ≤ r.format.usedBits := by decide

/-- A word is below `2 ^ k` exactly when no bit of it at or above bit `k` is 1. -/
theorem toNat_lt_two_pow_iff (w : OpWord) (k : Nat) :
    w.toNat < 2 ^ k ↔ ∀ i, k ≤ i → i < 48 → w.getLsbD i = false := by
  constructor
  · intro h i hk _
    exact Nat.testBit_lt_two_pow (h.trans_le (Nat.pow_le_pow_right Nat.two_pos hk))
  · intro h
    refine Nat.lt_pow_two_of_testBit _ fun i hk => ?_
    by_cases hi : i < 48
    · exact h i hk hi
    · exact BitVec.getLsbD_of_ge w i (by omega)

/-- A mask of the low four bits and the bits from `k` on leaves `op` exactly when those four bits are `op` and no bit
from `k` on is 1. -/
theorem and_mask_eq_iff (w : OpWord) (op k : Nat) (hop : op < 2 ^ 4) (hk : 4 ≤ k) :
    w &&& (0xF ||| BitVec.allOnes 48 <<< k) = BitVec.ofNat 48 op ↔ w.toNat % 2 ^ 4 = op ∧ w.toNat < 2 ^ k := by
  have hlow (i : Nat) : (0xF : OpWord).getLsbD i = decide (i < 4) := by
    rw [← BitVec.testBit_toNat]
    exact Nat.testBit_two_pow_sub_one 4 i
  have hhigh (i : Nat) (hi : 4 ≤ i) : op.testBit i = false :=
    Nat.testBit_lt_two_pow (hop.trans_le (Nat.pow_le_pow_right Nat.two_pos hi))
  have hbit (i : Nat) (hi : i < 48) : (w &&& (0xF ||| BitVec.allOnes 48 <<< k)).getLsbD i =
      (w.getLsbD i && (decide (i < 4) || !decide (i < k))) := by
    rw [BitVec.getLsbD_and, BitVec.getLsbD_or, hlow, BitVec.getLsbD_shiftLeft, BitVec.getLsbD_allOnes]
    have hlt : i - k < 48 := by omega
    simp [hi, hlt]
  rw [toNat_lt_two_pow_iff]
  constructor
  · intro h
    have hmatch (i : Nat) (hi : i < 48) : (w.getLsbD i && (decide (i < 4) || !decide (i < k))) = op.testBit i := by
      rw [← hbit i hi, h, BitVec.getLsbD_ofNat]
      simp [hi]
    refine ⟨Nat.eq_of_testBit_eq fun i => ?_, fun i hki hi => ?_⟩
    · rw [Nat.testBit_mod_two_pow, BitVec.testBit_toNat]
      by_cases hi : i < 4
      · simpa [hi] using hmatch i (by omega)
      · simp [hi, hhigh i (by omega)]
    · simpa [Nat.not_lt.2 hki, hhigh i (by omega)] using hmatch i hi
  · rintro ⟨rfl, hz⟩
    refine BitVec.eq_of_getLsbD_eq fun i hi => ?_
    rw [hbit i hi, BitVec.getLsbD_ofNat, Nat.testBit_mod_two_pow, BitVec.testBit_toNat]
    by_cases hki : i < k
    · simp [hi, hki, Bool.and_comm]
    · simp [hz i (by omega) hi]

/-- "`(w AND mask) = match`" (R82): the word fits the row. -/
theorem and_mask_eq_pattern_iff (w : OpWord) (r : OpcodeRow) (hr : r ∈ opcodeRows) :
    w &&& r.mask = r.pattern ↔ r.Fits w := by
  obtain ⟨hpattern, hmask, -, hop, hused⟩ := row_pattern_and_mask r hr
  rw [hpattern, hmask, and_mask_eq_iff w _ _ (by omega) hused]
  rfl

/-! ### Encoding and decoding -/

/-- A word is an instruction's word exactly when it fits the row and holds the operands: they fill the used bits. -/
theorem encode_eq_iff (w : OpWord) (i : Instr) : encode i = w ↔ i.row.Fits w ∧ i.OperandsIn w := by
  have hw := w.isLt
  rw [← BitVec.toNat_inj]
  cases i <;>
    simp only [toNat_encode_rxByte, toNat_encode_qPush, toNat_encode_setAddr, toNat_encode_txbWr, toNat_encode_txSend,
      OpcodeRow.Fits, Instr.row, Instr.OperandsIn, opcodeRows, List.getElem_cons_zero, List.getElem_cons_succ,
      Format.usedBits, and_true,
      ← BitVec.toNat_inj, a8Field_toNat, v32Field_toNat, s1Field_eq_iff, i16Field_toNat, b8Field_toNat, l16Field_toNat]
  case rxByte b => have := b.isLt; omega
  case qPush id v => have := id.isLt; have := v.isLt; omega
  case qPop => change 3 = _ ↔ _; omega
  case qClear => change 4 = _ ↔ _; omega
  case frameTick => change 5 = _ ↔ _; omega
  case setAddr a f => have := a.isLt; have := f.toNat_lt; omega
  case txbWr i b => have := i.isLt; have := b.isLt; omega
  case txSend a c len => have := a.isLt; have := c.isLt; have := len.isLt; omega

/-- What a row's arm of the decoder answers (R83). -/
theorem decodeAs_eq_operation_iff (f : Format) (w : OpWord) (j i : Instr) :
    decodeAs f w j = .operation i ↔ w.toNat < 2 ^ f.usedBits ∧ j = i := by
  simp only [decodeAs, mbzClear, decide_eq_true_eq]
  split <;> simp [*]

/-- The decoder answers an instruction exactly when the word fits its row and holds its operands. -/
theorem decodeWord_eq_operation_iff (w : OpWord) (i : Instr) :
    decodeWord w = .operation i ↔ i.row.Fits w ∧ i.OperandsIn w := by
  rw [OpcodeRow.Fits, ← opField_toNat]
  constructor
  · intro h
    unfold decodeWord at h
    split at h
    case h_9 => cases h
    all_goals
      obtain ⟨hused, rfl⟩ := (decodeAs_eq_operation_iff _ _ _ _).1 h
      exact ⟨⟨‹_›, hused⟩, by simp [Instr.OperandsIn]⟩
  · rintro ⟨⟨hop, hused⟩, hfields⟩
    unfold decodeWord
    rw [hop]
    cases i <;> exact (decodeAs_eq_operation_iff _ _ _ _).2 ⟨hused, by simp_all [Instr.OperandsIn]⟩

/-- Decoding and encoding are inverse to each other. -/
theorem decodeWord_eq_operation_iff_encode (w : OpWord) (i : Instr) : decodeWord w = .operation i ↔ encode i = w := by
  rw [decodeWord_eq_operation_iff, encode_eq_iff]

@[simp] theorem decodeWord_encode (i : Instr) : decodeWord (encode i) = .operation i :=
  (decodeWord_eq_operation_iff_encode _ i).2 rfl

/-- Settles O1: being the word of an instruction and decoding to it are the same. -/
theorem decodeOfEncodeIsTheInstruction : Obligations.DecodeOfEncodeIsTheInstruction :=
  decodeWord_encode

/-- Settles O2, by the other direction of the same equivalence. -/
theorem encodeOfDecodeIsTheWord : Obligations.EncodeOfDecodeIsTheWord :=
  fun w i => (decodeWord_eq_operation_iff_encode w i).1

/-! ### The opcode map -/

/-- A word fits a row exactly when it decodes to an instruction of that row. -/
theorem fits_iff_decodes (w : OpWord) (r : OpcodeRow) (hr : r ∈ opcodeRows) :
    r.Fits w ↔ ∃ i, decodeWord w = .operation i ∧ i.mnemonic = r.mnemonic := by
  constructor
  · intro hfits
    obtain ⟨i, rfl, hfields⟩ := exists_instr_of_row w r hr
    exact ⟨i, (decodeWord_eq_operation_iff w i).2 ⟨hfits, hfields⟩, i.row_mnemonic.symm⟩
  · rintro ⟨i, hdecode, hname⟩
    obtain rfl : i.row = r := row_eq_of_mnemonic_eq _ i.row_mem r hr (i.row_mnemonic.trans hname)
    exact ((decodeWord_eq_operation_iff w i).1 hdecode).1

/-- Settles O3: a word's opcode is the row's, and no two rows have the same one. -/
theorem rowSelectsExactlyItsOperation : Obligations.RowSelectsExactlyItsOperation := by
  intro w r hr
  refine ⟨(and_mask_eq_pattern_iff w r hr).trans (fits_iff_decodes w r hr), fun r' hr' h h' => ?_⟩
  obtain ⟨hop, -⟩ := (and_mask_eq_pattern_iff w r hr).1 h
  obtain ⟨hop', -⟩ := (and_mask_eq_pattern_iff w r' hr').1 h'
  exact row_eq_of_opcode_eq r hr r' hr' (hop.symm.trans hop')

/-- A word of no row decodes to no instruction (R83). -/
theorem decodeWord_ne_operation (w : OpWord) (h : ∀ r ∈ opcodeRows, w &&& r.mask ≠ r.pattern) (i : Instr) :
    decodeWord w ≠ .operation i := fun hdecode =>
  h i.row i.row_mem
    ((and_mask_eq_pattern_iff w i.row i.row_mem).2 ((decodeWord_eq_operation_iff w i).1 hdecode).1)

/-- Settles O4: each legal word is the word of its instruction, and on each other word the decoder answers illegal. -/
theorem specWordsDecode : Obligations.SpecWordsDecode := by
  have hword {w : OpWord} {i : Instr} : encode i = w → decodeWord w = .operation i :=
    (decodeWord_eq_operation_iff_encode w i).2
  refine ⟨hword rfl, hword rfl, hword rfl, hword rfl, hword rfl, hword rfl, hword rfl, hword rfl, ?_⟩
  simp only [List.forall_mem_cons]
  and_intros <;> nofun

end Sys2Proof
end

