-- ==== Sys2Proof/Proofs/PresentedWord.lean ====
section
/-! SUPPORT. What the block does with a presented word: an instruction's word is performed, and a word of no row is
reported (spec/30_encoding.md R82, R83). -/

namespace Sys2Proof.Machine

/-! ### Words of no row -/

/-- A row's format has a must-be-zero bit at 1 exactly when the word is not below the format's fields (R81). -/
theorem not_fits_iff (w : OpWord) (r : OpcodeRow) :
    ¬r.Fits w ↔ w.toNat % 16 = r.opcode → ∃ k, r.format.usedBits ≤ k ∧ k < 48 ∧ w.getLsbD k = true := by
  simp [OpcodeRow.Fits, toNat_lt_two_pow_iff]

/-- The opcodes that are not reserved are those of the rows (R82, R83). -/
theorem reserved_or_row_of_opcode : ∀ op < 16, op = 0 ∨ 9 ≤ op ∨ ∃ r ∈ opcodeRows, op = r.opcode := by decide

/-- R83's two kinds of illegal word: a reserved opcode, or a must-be-zero bit of the opcode's row at 1. -/
theorem no_row_iff (w : OpWord) :
    (∀ r ∈ opcodeRows, w &&& r.mask ≠ r.pattern) ↔
      w.toNat % 16 = 0 ∨ 9 ≤ w.toNat % 16 ∨ ∃ r ∈ opcodeRows, w.toNat % 16 = r.opcode ∧
        ∃ k, r.format.usedBits ≤ k ∧ k < 48 ∧ w.getLsbD k = true := by
  have hrow (r : OpcodeRow) (hr : r ∈ opcodeRows) : w &&& r.mask ≠ r.pattern ↔
      (w.toNat % 16 = r.opcode → ∃ k, r.format.usedBits ≤ k ∧ k < 48 ∧ w.getLsbD k = true) := by
    rw [ne_eq, and_mask_eq_pattern_iff w r hr, not_fits_iff]
  constructor
  · intro h
    rcases reserved_or_row_of_opcode (w.toNat % 16) (Nat.mod_lt _ (by decide)) with h0 | h9 | ⟨r, hr, hop⟩
    · exact .inl h0
    · exact .inr (.inl h9)
    · exact .inr (.inr ⟨r, hr, hop, (hrow r hr).1 (h r hr) hop⟩)
  · intro h r hr
    rw [hrow r hr]
    intro hop
    obtain ⟨-, -, hpos, hlt, -⟩ := row_pattern_and_mask r hr
    rcases h with h0 | h9 | ⟨r', hr', hop', hbit⟩
    · omega
    · omega
    · rwa [row_eq_of_opcode_eq r hr r' hr' (hop.symm.trans hop')]

/-! ### Performing a word -/

theorem performWord_operation (w : OpWord) (i : Instr) (s : State) (h : decodeWord w = .operation i) :
    performWord w s = exec i s := by
  simp [performWord, h]

theorem performWord_no_row (w : OpWord) (s : State) (h : ∀ r ∈ opcodeRows, w &&& r.mask ≠ r.pattern) :
    performWord w s = .next (s.emit [.illegalOp w]) := by
  cases hd : decodeWord w with
  | operation i => exact absurd hd (decodeWord_ne_operation w h i)
  | illegal why => simp [performWord, hd, illegalOperation]

/-- Settles O6: the step performs the presented word, which is its instruction. -/
theorem stepRunsTheDecodedOperation : Obligations.StepRunsTheDecodedOperation := by
  intro s w rest i hw hu hp hd
  rw [step_performs s w rest hw hu hp, performWord_operation w i _ hd]

/-- Settles O7: a word of no row is one of R83's two kinds, and performing it only reports it. -/
theorem illegalWordIsReportedAndChangesNothing : Obligations.IllegalWordIsReportedAndChangesNothing := by
  refine ⟨no_row_iff, fun s w rest hw hu hp hnone => ?_⟩
  rw [step_performs s w rest hw hu hp, performWord_no_row w _ hnone]
  simp [State.emit, hu]

end Sys2Proof.Machine
end

