-- ==== Sys2Proof/Proofs/Assembly.lean ====
section
/-! SUPPORT. The words of assembly lines (spec/30_encoding.md R91), and what the words of `sendframe` do (R92). -/

namespace Sys2Proof.Machine

/-! ### One line -/

theorem assembleLine_of_wellFormed (l : AsmLine) (h : l.wellFormed = true) : assembleLine l = some (lineWord l) :=
  if_pos h

theorem assembleLine_eq_none_iff (l : AsmLine) : assembleLine l = none ↔ l.wellFormed = false := by
  simp [assembleLine]

/-- The line that writes an instruction (R91). -/
def lineOf : Instr → AsmLine
  | .rxByte b => .rxb b.toNat
  | .qPush id v => .qpush id.toNat v.toNat
  | .qPop => .qpop
  | .qClear => .qclr
  | .frameTick => .tick
  | .setAddr a f => .setaddr a.toNat f.toNat
  | .txbWr i b => .txbw i.toNat b.toNat
  | .txSend a c len => .txsend a.toNat c.toNat len.toNat

/-- An operand is below its field's range, whatever its value. -/
theorem lineOf_wellFormed (i : Instr) : (lineOf i).wellFormed = true := by
  cases i with
  | rxByte b => simp [lineOf, AsmLine.wellFormed, b.isLt]
  | qPush id v => simp [lineOf, AsmLine.wellFormed, id.isLt, v.isLt]
  | setAddr a f => simp [lineOf, AsmLine.wellFormed, a.isLt, f.toNat_lt]
  | txbWr i b => simp [lineOf, AsmLine.wellFormed, i.isLt, b.isLt]
  | txSend a c len => simp [lineOf, AsmLine.wellFormed, a.isLt, c.isLt, len.isLt]
  | _ => rfl

theorem lineWord_lineOf (i : Instr) : lineWord (lineOf i) = encode i := by
  cases i <;> simp [lineOf, lineWord]

/-- The line that writes an instruction assembles to its word. -/
theorem assembleLine_lineOf (i : Instr) : assembleLine (lineOf i) = some (encode i) := by
  rw [assembleLine_of_wellFormed _ (lineOf_wellFormed i), lineWord_lineOf]

theorem decode_assembleLine_lineOf (i : Instr) : (assembleLine (lineOf i)).map decodeWord = some (.operation i) := by
  rw [assembleLine_lineOf, Option.map_some, decodeWord_encode]

/-- `.w48` writes any word (R91). -/
theorem assembleLine_w48 (w : OpWord) : assembleLine (.w48 w.toNat) = some w := by
  rw [assembleLine_of_wellFormed _ (by simp [AsmLine.wellFormed, w.isLt])]
  simp [lineWord]

/-- Settles O5: the line of each instruction is read back, and one with an operand out of range is not well formed. -/
theorem assembledLineDecodesOrIsAnError : Obligations.AssembledLineDecodesOrIsAnError := by
  refine ⟨fun b => decode_assembleLine_lineOf (.rxByte b), fun id v => decode_assembleLine_lineOf (.qPush id v),
    fun a f => decode_assembleLine_lineOf (.setAddr a f), fun i b => decode_assembleLine_lineOf (.txbWr i b),
    fun a c l => decode_assembleLine_lineOf (.txSend a c l), decode_assembleLine_lineOf .qPop,
    decode_assembleLine_lineOf .qClear, decode_assembleLine_lineOf .frameTick, assembleLine_w48,
    fun b h => ?_, fun id v h => ?_, fun a f h => ?_, fun i b h => ?_, fun a c l h => ?_, fun x h => ?_⟩
  all_goals
    rw [assembleLine_eq_none_iff, ← Bool.not_eq_true]
    simp only [AsmLine.wellFormed, Bool.and_eq_true, decide_eq_true_eq]
    omega

/-! ### `sendframe` -/

/-- The words of the TXB_WRs that stage the bytes `bs` from index `i` up. -/
def stageWords : Nat → List Byte → List OpWord
  | _, [] => []
  | i, b :: bs => encode (.txbWr (BitVec.ofNat 16 i) b) :: stageWords (i + 1) bs

/-- Lines that stage bytes below index 2^16, before lines that assemble. -/
theorem assembleLines_stageLines (i : Nat) (bs : List Byte) (ls : List AsmLine) (ws : List OpWord)
    (h : i + bs.length ≤ 2 ^ 16) (hls : assembleLines ls = some ws) :
    assembleLines (stageLines i (bs.map BitVec.toNat) ++ ls) = some (stageWords i bs ++ ws) := by
  induction bs generalizing i with
  | nil => exact hls
  | cons b bs ih =>
    rw [List.length_cons] at h
    have hi : (BitVec.ofNat 16 i).toNat = i := Nat.mod_eq_of_lt (by omega)
    have hline : assembleLine (.txbw i b.toNat) = some (encode (.txbWr (BitVec.ofNat 16 i) b)) := by
      rw [← assembleLine_lineOf, lineOf, hi]
    simp only [List.map_cons, stageLines, List.cons_append, assembleLines, hline, ih (i + 1) (by omega), stageWords]

theorem assembleSource_sendframe (a c : Byte) (payload : List Byte) (h : payload.length < 2 ^ 16) :
    assembleSource (.sendframe a.toNat c.toNat (payload.map BitVec.toNat)) =
      some (stageWords 0 payload ++ [encode (.txSend a c (BitVec.ofNat 16 payload.length))]) := by
  refine assembleLines_stageLines 0 payload _ _ (by omega) ?_
  have hl : (BitVec.ofNat 16 payload.length).toNat = payload.length := Nat.mod_eq_of_lt h
  have hline : assembleLine (.txsend a.toNat c.toNat payload.length) =
      some (encode (.txSend a c (BitVec.ofNat 16 payload.length))) := by
    rw [← assembleLine_lineOf, lineOf, hl]
  simp only [assembleLines, List.length_map, hline]

theorem performWord_encode (i : Instr) (s : State) : performWord (encode i) s = exec i s :=
  performWord_operation _ i s (decodeWord_encode i)

theorem performAll_append (ws us : List OpWord) (s : State) :
    performAll (ws ++ us) s = andThen (performAll ws s) (performAll us) := by
  induction ws generalizing s with
  | nil => rfl
  | cons w ws ih =>
    simp only [List.cons_append, performAll, andThen_assoc]
    exact congrArg _ (funext ih)

/-- The first word is performed with every earlier event taken, so taking them before changes nothing. -/
theorem performAll_takeAll (ws : List OpWord) (s : State) (h : ws ≠ []) :
    performAll ws s.takeAll = performAll ws s := by
  cases ws with
  | nil => exact absurd rfl h
  | cons w ws => rfl

/-- The staging words write their bytes into `TxBuf` and do nothing else. -/
theorem performAll_stageWords (i : Nat) (bs : List Byte) (s : State) (hsize : s.params.txPayloadMax ≤ 2 ^ 16)
    (h : i + bs.length ≤ s.params.txPayloadMax) :
    performAll (stageWords i bs) s.takeAll =
      .next (State.takeAll { s with txBuf := Store.writeRun s.txBuf i bs }) := by
  induction bs generalizing i s with
  | nil => rfl
  | cons b bs ih =>
    rw [List.length_cons] at h
    have hi : (BitVec.ofNat 16 i).toNat = i := Nat.mod_eq_of_lt (by omega)
    have hwrite : exec (.txbWr (BitVec.ofNat 16 i) b) s.takeAll =
        .next (State.takeAll { s with txBuf := Store.write s.txBuf i b }) := by
      rw [exec_txbWr_of_lt _ _ _ (by simp [hi]; omega), hi]
      rfl
    simp only [stageWords, performAll, performWord_encode]
    exact (congrArg (andThen · _) hwrite).trans (ih (i + 1) _ hsize (by simp only; omega))

/-- TX_SEND of a payload that has just been written from index 0 up (R190, R192). -/
theorem exec_txSend_written (a c : Byte) (payload : List Byte) (s : State) (m : Memory)
    (hm : s.txBuf = Store.writeRun m 0 payload) (hlen : payload.length ≤ s.params.txPayloadMax)
    (h16 : payload.length < 2 ^ 16) :
    exec (.txSend a c (BitVec.ofNat 16 payload.length)) s =
      .next (s.emit [.txWrite [s.params.syncByte], .txWrite (frameBody s.params a c payload)]) := by
  have hl : (BitVec.ofNat 16 payload.length).toNat = payload.length := Nat.mod_eq_of_lt h16
  have hread (k : Nat) (hk : k < payload.length) : Store.read s.txBuf k = payload[k]? := by
    rw [hm, Store.read_writeRun, if_pos (by omega), Nat.sub_zero]
  refine (if_neg ?_).trans ?_
  · rw [hl]; omega
  · rw [hl]; exact sendFrame_staged a c _ s payload rfl hread

/-- Settles O53: the TXB_WRs stage the payload, and TX_SEND finds it staged. -/
theorem sendframeSendsItsPayload : Obligations.SendframeSendsItsPayload := by
  intro s a c payload hw hlen
  obtain ⟨-, -, -, -, htx, -⟩ := params_ranges _ hw
  have hsend := exec_txSend_written a c payload
    (State.takeAll { s with txBuf := Store.writeRun s.txBuf 0 payload }) s.txBuf rfl hlen (by omega)
  have hrun : performAll (stageWords 0 payload ++ [encode (.txSend a c (BitVec.ofNat 16 payload.length))]) s =
      .next (State.emit (State.takeAll { s with txBuf := Store.writeRun s.txBuf 0 payload })
        [.txWrite [s.params.syncByte], .txWrite (frameBody s.params a c payload)]) := by
    rw [← performAll_takeAll _ _ (by simp), performAll_append,
      performAll_stageWords 0 payload s (by omega) (by omega), andThen_next, performAll, performWord_encode]
    exact congrArg (andThen · (performAll [])) hsend
  refine ⟨_, _, assembleSource_sendframe a c payload (by omega), hrun, ?_⟩
  rw [newEvents_of_append s _ _ rfl]
  simp [transportWrites, SameReceive, SameAddress, SameQueue]

end Sys2Proof.Machine
end

