-- ==== Sys2Proof/Proofs/CrcChange.lean ====
section
/-! SUPPORT. The values of the CRC-8 that the spec prints, and why no change of one byte escapes it (spec/40_receive.md
R120, R134). -/

namespace Sys2Proof.Machine

/-- Settles O25, each value by evaluation. -/
theorem crcValuesOfTheSpec : Obligations.CrcValuesOfTheSpec := by
  and_intros <;> decide +kernel

/-! ### One shift -/

/-- A shift register is injective when its feedback constant sets the bit that the shift vacates: that bit then tells
the bit shifted out, which tells whether the constant was added. -/
theorem shiftRegister_injective (lost : Byte → Bool) (shift : Byte → Byte) (k : Byte) (vacated : Nat)
    (hvacated : ∀ c, (shift c).getLsbD vacated = false) (hk : k.getLsbD vacated = true)
    (hshift : ∀ c c', lost c = lost c' → shift c = shift c' → c = c') :
    Function.Injective fun c => if lost c then shift c ^^^ k else shift c := by
  intro c c' h
  have htells (x : Byte) : (if lost x then shift x ^^^ k else shift x).getLsbD vacated = lost x := by
    cases hx : lost x <;> simp [hvacated, hk]
  have hlost : lost c = lost c' := by rw [← htells c, ← htells c']; exact congrArg (·.getLsbD vacated) h
  refine hshift c c' hlost ?_
  simp only [hlost] at h
  split at h
  · exact (BitVec.xor_left_inj k).1 h
  · exact h

theorem crcShift_injective (p : Params) (hp : p.crcPoly.getLsbD 0 = true) : Function.Injective (crcShift p) := by
  have hk : (crcFeedback p).getLsbD 0 = true := by simpa [crcFeedback] using hp
  unfold crcShift
  cases p.crcReflect
  · refine shiftRegister_injective (·.getLsbD 7) (· <<< 1) _ 0 (by simp) hk fun c c' hlost h => ?_
    refine BitVec.eq_of_getLsbD_eq fun i hi => ?_
    by_cases h7 : i = 7
    · rw [h7]; exact hlost
    · have hbit := congrArg (·.getLsbD (i + 1)) h
      simpa [BitVec.getLsbD_shiftLeft, show i + 1 < 8 by omega, -BitVec.getLsbD_eq_getElem] using hbit
  · have hk' : (crcFeedbackReflected p).getLsbD 7 = true := by
      rw [crcFeedbackReflected, BitVec.getLsbD_reverse]
      exact hk
    refine shiftRegister_injective (·.getLsbD 0) (· >>> 1) _ 7 (by simp) hk' fun c c' hlost h => ?_
    refine BitVec.eq_of_getLsbD_eq fun i hi => ?_
    cases i with
    | zero => exact hlost
    | succ i => simpa [Nat.add_comm 1 i] using congrArg (·.getLsbD i) h

/-! ### A byte and a sequence of bytes -/

theorem crcShifts_injective (p : Params) (hp : p.crcPoly.getLsbD 0 = true) (k : Nat) :
    Function.Injective (crcShifts p k) := by
  induction k with
  | zero => exact fun _ _ h => h
  | succ k ih => exact ih.comp (crcShift_injective p hp)

/-- From one register, different bytes lead to different registers. -/
theorem crc8Step_injective_byte (p : Params) (hp : p.crcPoly.getLsbD 0 = true) (c : Byte) :
    Function.Injective (crc8Step p c) := fun _ _ h =>
  (BitVec.xor_right_inj c).1 (crcShifts_injective p hp 8 h)

/-- The same bytes keep different registers different. -/
theorem crcRun_injective (p : Params) (hp : p.crcPoly.getLsbD 0 = true) (m : List Byte) :
    Function.Injective (crcRun p · m) := by
  induction m with
  | nil => exact fun _ _ h => h
  | cons b m ih => exact fun _ _ h => (BitVec.xor_left_inj b).1 (crcShifts_injective p hp 8 (ih h))

/-- Settles O26: the changed byte makes the registers differ, and the bytes after it keep them so. -/
theorem crcDetectsAnyOneChangedByte : Obligations.CrcDetectsAnyOneChangedByte := by
  intro p m n b b' hp hne h
  have hrun : crcRun p p.crcInit (m ++ b :: n) = crcRun p p.crcInit (m ++ b' :: n) :=
    (BitVec.xor_left_inj p.crcXorout).1 h
  rw [crcRun_append, crcRun_append, crcRun_cons, crcRun_cons] at hrun
  exact hne (crc8Step_injective_byte p hp _ (crcRun_injective p hp n hrun))

end Sys2Proof.Machine
end

