-- ==== Sys2Proof/Proofs/RxByte.lean ====
section
/-! SUPPORT. What one RX_BYTE does in each state of the decoder (spec/40_receive.md R122 to R128), that it always
completes, and that SET_ADDR does not disturb it after the address byte (R140). -/

namespace Sys2Proof.Machine

/-! ### The decoder's case -/

section Cases
variable (b : Byte) (s : State)

theorem decodeStep_idle (h : s.rxState = .idle) : decodeStep b s = .next (decodeIdle b s) := by
  rw [decodeStep, h]

theorem decodeStep_readAddress (h : s.rxState = .readAddress) : decodeStep b s = .next (decodeAddress b s) := by
  rw [decodeStep, h]

theorem decodeStep_readCommand (h : s.rxState = .readCommand) : decodeStep b s = .next (decodeCommand b s) := by
  rw [decodeStep, h]

theorem decodeStep_readLengthLow (h : s.rxState = .readLengthLow) :
    decodeStep b s = .next (decodeLengthLow b s) := by
  rw [decodeStep, h]

theorem decodeStep_readLengthHigh (h : s.rxState = .readLengthHigh) :
    decodeStep b s = .next (decodeLengthHigh b s) := by
  rw [decodeStep, h]

theorem decodeStep_readPayload (h : s.rxState = .readPayload) : decodeStep b s = decodePayload b s := by
  rw [decodeStep, h]

theorem decodeStep_readCrc (h : s.rxState = .readCrc) : decodeStep b s = decodeCrc b s := by
  rw [decodeStep, h]

end Cases

/-! ### `Idle` to `ReadLengthLow` -/

/-- Settles O27: the decoder stays in `Idle`, or opens a frame, and the byte counts. -/
theorem rxByteInIdle : Obligations.RxByteInIdle := by
  intro s b hs
  refine execRxByte_counts b s _ [] ((decodeStep_idle b s hs).trans ?_)
  unfold decodeIdle
  split
  · rfl
  · rw [← hs]

theorem acceptsAddress_iff (s : State) (a : Byte) :
    acceptsAddress s a = true ↔ a = s.params.bcastAddr ∨ s.addrAssigned = false ∨ a = s.devAddr := by
  simp [acceptsAddress, or_assoc]

/-- Settles O28: R129's filter chooses between R123's two branches. -/
theorem rxByteInReadAddress : Obligations.RxByteInReadAddress := by
  intro s b hs
  rw [← acceptsAddress_iff]
  constructor
  · intro haccept
    exact execRxByte_counts b s _ [] ((decodeStep_readAddress b s hs).trans (by rw [decodeAddress, if_pos haccept]))
  · intro hreject
    exact execRxByte_counts b s _ [] ((decodeStep_readAddress b s hs).trans (by rw [decodeAddress, if_neg hreject]))

/-- Settles O29: both states take any byte. -/
theorem rxByteInReadCommandAndLengthLow : Obligations.RxByteInReadCommandAndLengthLow := by
  intro s b
  constructor
  · intro hs
    exact execRxByte_counts b s _ [] (decodeStep_readCommand b s hs)
  · intro hs
    rw [BitVec.ofNat_toNat]
    exact execRxByte_counts b s _ [] (decodeStep_readLengthLow b s hs)

/-! ### `ReadLengthHigh` and `ReadPayload` -/

/-- The declared length, as a number. -/
theorem lengthOf_lengthLow_toNat (b : Byte) (len : Half) :
    (lengthOf b (lengthLow len)).toNat = b.toNat * 256 + len.toNat % 256 := by
  rw [lengthOf_toNat, lengthLow_toNat]

/-- A length that `RxBuf` can hold, of an empty payload or of one to come. -/
theorem decodeLengthHigh_fits (b : Byte) (s : State)
    (hfits : (lengthOf b (lengthLow s.rxLen)).toNat ≤ s.params.rxPayloadMax) :
    decodeLengthHigh b s =
      ⟨{ s with
          rxLen := lengthOf b (lengthLow s.rxLen)
          rxCrc := crc8Step s.params s.rxCrc b
          rxIdx := 0
          rxState := if lengthOf b (lengthLow s.rxLen) = 0 then .readCrc else .readPayload }, [], false⟩ := by
  by_cases h0 : lengthOf b (lengthLow s.rxLen) = 0
  · rw [decodeLengthHigh, if_pos h0, if_pos h0]
  · rw [decodeLengthHigh, if_neg h0, if_neg (Nat.not_lt.2 hfits), if_neg h0]

/-- Settles O30: the three branches of R126 are the three ranges of the declared length. -/
theorem rxByteInReadLengthHigh : Obligations.RxByteInReadLengthHigh := by
  intro s b hs len t
  have hlen : (lengthOf b (lengthLow s.rxLen)).toNat = len := lengthOf_lengthLow_toNat b s.rxLen
  have hword : lengthOf b (lengthLow s.rxLen) = BitVec.ofNat 16 len := by
    rw [← hlen, BitVec.ofNat_toNat, BitVec.setWidth_eq]
  have hzero : BitVec.ofNat 16 len = 0 ↔ len = 0 := by rw [← hword, ← BitVec.toNat_inj, hlen]; rfl
  have hstep := decodeStep_readLengthHigh b s hs
  refine ⟨fun h0 => ?_, fun hpos hover => ?_, fun hpos hfits => ?_⟩
  · rw [decodeLengthHigh_fits b s (by omega), hword, if_pos (hzero.2 h0)] at hstep
    exact execRxByte_counts b s _ _ hstep
  · have hne : ¬BitVec.ofNat 16 len = 0 := fun h => by rw [hzero] at h; omega
    rw [decodeLengthHigh, hlen, hword, if_neg hne, if_pos hover] at hstep
    exact execRxByte_counts b s _ _ hstep
  · have hne : ¬BitVec.ofNat 16 len = 0 := fun h => by rw [hzero] at h; omega
    rw [decodeLengthHigh_fits b s (by omega), hword, if_neg hne] at hstep
    exact execRxByte_counts b s _ _ hstep

/-- A payload byte inside `RxBuf`. -/
theorem decodeStep_stores (b : Byte) (s : State) (hs : s.rxState = .readPayload)
    (hidx : s.rxIdx.toNat < s.params.rxPayloadMax) :
    decodeStep b s = .next
      ⟨{ s with
          rxBuf := Store.write s.rxBuf s.rxIdx.toNat b
          rxIdx := s.rxIdx + 1
          rxCrc := crc8Step s.params s.rxCrc b
          rxState := if s.rxIdx + 1 = s.rxLen then .readCrc else .readPayload }, [], false⟩ := by
  rw [decodeStep_readPayload b s hs, decodePayload, (storeRx_eq_next _ b s _).2 ⟨hidx, rfl⟩]
  rfl

/-- Settles O31: inside the invariant the index is inside the payload, and the payload inside `RxBuf`. -/
theorem rxByteInReadPayload : Obligations.RxByteInReadPayload := by
  intro s b hinv hs
  obtain ⟨hlt, hfits, -⟩ := hinv.payload hs
  have hnext : (s.rxIdx + 1).toNat = s.rxIdx.toNat + 1 := toNat_add_one (by omega)
  have hlast : s.rxIdx + 1 = s.rxLen ↔ s.rxIdx.toNat + 1 = s.rxLen.toNat := by rw [← BitVec.toNat_inj, hnext]
  refine ⟨Store.write s.rxBuf s.rxIdx.toNat b, ?_, Store.read_write_self _ _ _,
    fun i hi => Store.read_write_other _ _ _ _ hi⟩
  simp only [← hlast]
  exact execRxByte_counts b s _ [] (decodeStep_stores b s hs (by omega))

/-! ### `ReadCrc` -/

/-- Any byte but the frame's CRC. -/
theorem execRxByte_wrong_crc (b : Byte) (s : State) (hs : s.rxState = .readCrc)
    (hne : b ≠ s.rxCrc ^^^ s.params.crcXorout) :
    execRxByte b s = .next (afterByte { s with rxState := .idle } [.crcError]) := by
  refine execRxByte_counts b s _ _ ?_
  rw [decodeStep_readCrc b s hs, decodeCrc, if_neg hne]

/-- The frame's CRC, after a payload that `RxBuf` can hold. -/
theorem execRxByte_right_crc (b : Byte) (s : State) (hs : s.rxState = .readCrc)
    (hfits : s.rxLen.toNat ≤ s.params.rxPayloadMax) (heq : b = s.rxCrc ^^^ s.params.crcXorout) :
    execRxByte b s = .next (State.emit { s with rxState := .idle, byteCount := 0 }
      [.frameOk s.rxAddr s.rxCmd (rxBufBytes s s.rxLen.toNat)]) := by
  refine execRxByte_validates b s { s with rxState := .idle } _ ?_
  rw [decodeStep_readCrc b s hs, decodeCrc, if_pos heq, if_pos hfits]

@[simp] theorem length_rxBufBytes (s : State) (n : Nat) : (rxBufBytes s n).length = n := by
  simp [rxBufBytes]

/-- The bytes that have been stored are read back. -/
theorem getElem?_rxBufBytes (s : State) (n i : Nat) (h : rxStored s n) (hi : i < n) :
    (rxBufBytes s n)[i]? = Store.read s.rxBuf i := by
  obtain ⟨v, hv⟩ := Option.isSome_iff_exists.1 (h i hi)
  simp [rxBufBytes, rxBufByte, hi, hv]

/-- At the CRC byte the register, with the final XOR, is the CRC of the frame's head (R128). -/
theorem CrcTracks.eq_crc8 {s : State} (h : CrcTracks s) (hs : s.rxState = .readCrc) :
    s.rxCrc ^^^ s.params.crcXorout =
      crc8 s.params (frameHead s.rxAddr s.rxCmd (rxBufBytes s s.rxLen.toNat)) := by
  simp only [CrcTracks, hs] at h
  rw [crc8, frameHead, length_rxBufBytes, BitVec.ofNat_toNat, BitVec.setWidth_eq, h]

/-- Settles O32: the payload is what `RxBuf` holds, and the byte is compared with the register. -/
theorem rxByteInReadCrc : Obligations.RxByteInReadCrc := by
  intro s b hinv hs
  obtain ⟨-, hfits, hstored⟩ := hinv.crc hs
  exact ⟨rxBufBytes s s.rxLen.toNat, length_rxBufBytes _ _, fun i hi => getElem?_rxBufBytes s _ i hstored hi,
    fun h => h.eq_crc8 hs, execRxByte_right_crc b s hs hfits, execRxByte_wrong_crc b s hs⟩

/-! ### Every state -/

/-- In a state of the invariant no access to `RxBuf` is outside it, so RX_BYTE completes. -/
theorem execRxByte_completes (b : Byte) (s : State) (h : ReceiveInv s) : ∃ t, execRxByte b s = .next t := by
  suffices ∃ r, decodeStep b s = .next r by
    obtain ⟨r, hr⟩ := this
    exact ⟨_, by rw [execRxByte, hr]; rfl⟩
  cases hs : s.rxState with
  | idle => exact ⟨_, decodeStep_idle b s hs⟩
  | readAddress => exact ⟨_, decodeStep_readAddress b s hs⟩
  | readCommand => exact ⟨_, decodeStep_readCommand b s hs⟩
  | readLengthLow => exact ⟨_, decodeStep_readLengthLow b s hs⟩
  | readLengthHigh => exact ⟨_, decodeStep_readLengthHigh b s hs⟩
  | readPayload =>
    obtain ⟨hlt, hfits, -⟩ := h.payload hs
    exact ⟨_, decodeStep_stores b s hs (by omega)⟩
  | readCrc =>
    obtain ⟨-, hfits, -⟩ := h.crc hs
    rw [decodeStep_readCrc b s hs, decodeCrc, if_pos hfits]
    split <;> exact ⟨_, rfl⟩

/-- The byte that uses up the budget. -/
theorem afterByte_exhausts (t : State) (es : List Event) (h : t.byteCount.toNat + 1 = t.params.syncBudget)
    (hb : t.params.syncBudget ≤ 4095) :
    afterByte t es = State.emit { t with rxState := .idle, byteCount := 0 } (es ++ [.budgetExhausted]) := by
  have hnext : (t.byteCount + 1).toNat = t.byteCount.toNat + 1 := toNat_add_one (by omega)
  rw [afterByte, if_pos (hnext.trans h)]
  rfl

/-- Settles O33: the decoder's event, then the guard's. -/
theorem rxByteEventsAndCount : Obligations.RxByteEventsAndCount := by
  intro s t b hinv hexec
  obtain ⟨-, -, -, -, -, -, -, hbudget, -⟩ := params_ranges _ hinv.params
  rcases execRxByte_eq_next b s t hexec with ⟨u, es, hd, rfl⟩ | ⟨u, es, hd, rfl⟩ <;>
    obtain ⟨⟨_, _, _, _, _, _, _, hu⟩, hev⟩ := decodeStep_eq_next b s _ hd <;>
    simp only at hu hev
  · have hes : es = [] ∨ es = [.crcError] ∨ es = [.lenError] := by
      rcases hev with ⟨-, he⟩ | ⟨-, he, -⟩ | ⟨-, he, -⟩ | ⟨hv, -⟩
      · exact .inl he
      · exact .inr (.inr he)
      · exact .inr (.inl he)
      · cases hv
    refine .inr ⟨es, hes, fun hlast => ?_, fun hroom => ?_⟩
    · rw [afterByte_exhausts u es (by rw [hu]; exact hlast) (by rw [hu]; exact hbudget)]
      exact ⟨newEvents_of_append _ _ _ (by rw [hu]; rfl), rfl, rfl⟩
    · rw [afterByte_inside u es (by rw [hu]; exact hroom) (by rw [hu]; exact hbudget)]
      have hnext : (s.byteCount + 1).toNat = s.byteCount.toNat + 1 := toNat_add_one (by omega)
      exact ⟨newEvents_of_append _ _ _ (by rw [hu]), by rw [hu]; exact hnext⟩
  · rcases hev with ⟨hv, -⟩ | ⟨hv, -⟩ | ⟨hv, -⟩ | ⟨-, -, he⟩
    · cases hv
    · cases hv
    · cases hv
    · exact .inl ⟨_, _, _, newEvents_of_append _ _ _ (by rw [hu, he]; rfl), rfl⟩

/-! ### SET_ADDR -/

/-- Settles O40: SET_ADDR is these two assignments. -/
theorem setAddrSetsTheAddressState : Obligations.SetAddrSetsTheAddressState := fun _ _ _ => rfl

/-- The state with another address state. -/
def State.withAddress (s : State) (a : Byte) (f : Bool) : State := { s with devAddr := a, addrAssigned := f }

/-- The same result with another address state. -/
def RxResult.withAddress (r : RxResult) (a : Byte) (f : Bool) : RxResult :=
  ⟨r.state.withAddress a f, r.events, r.validated⟩

section WithAddress
variable (a b : Byte) (f : Bool)

/-- Only the address filter reads the address state. -/
theorem decodeStep_withAddress (s : State) (hs : s.rxState ≠ .readAddress) :
    decodeStep b (s.withAddress a f) = andThen (decodeStep b s) fun r => .next (r.withAddress a f) := by
  have hst : (s.withAddress a f).rxState = s.rxState := rfl
  unfold decodeStep
  rw [hst]
  cases h : s.rxState with
  | idle =>
    simp only [decodeIdle, andThen_next, RxResult.withAddress, apply_ite (State.withAddress · a f)]
    rfl
  | readAddress => exact absurd h hs
  | readCommand => rfl
  | readLengthLow => rfl
  | readLengthHigh =>
    simp only [decodeLengthHigh, andThen_next, apply_ite (RxResult.withAddress · a f)]
    rfl
  | readPayload =>
    simp only [decodePayload, storeRx, andThen_ite]
    rfl
  | readCrc =>
    simp only [decodeCrc, andThen_ite]
    rfl

theorem guardBytes_withAddress (r : RxResult) :
    guardBytes (r.withAddress a f) = ((guardBytes r).1.withAddress a f, (guardBytes r).2) := by
  cases hv : r.validated
  · by_cases hc : (r.state.byteCount + 1).toNat = r.state.params.syncBudget <;>
      simp only [guardBytes, RxResult.withAddress, State.withAddress, hv, hc, reduceIte, Bool.false_eq_true]
  · simp only [guardBytes, RxResult.withAddress, State.withAddress, hv, reduceIte]

/-- Settles O41: outside `ReadAddress` the address state passes through the decoder and the guard unread. -/
theorem setAddrSparesAFrameInProgress : Obligations.SetAddrSparesAFrameInProgress := by
  intro s a b f hs
  change execRxByte b (s.withAddress a f) = andThen (execRxByte b s) (execSetAddr a f)
  rw [execRxByte, execRxByte, decodeStep_withAddress a b f s hs, andThen_assoc, andThen_assoc]
  congr 1
  funext r
  rw [andThen_next, guardBytes_withAddress]
  rfl

end WithAddress

end Sys2Proof.Machine
end

