-- ==== Sys2Proof/Proofs/Feed.lean ====
section
/-! SUPPORT. Runs of received bytes (spec/40_receive.md R145): byte by byte, over noise, a foreign address and a whole
frame's head. -/

namespace Sys2Proof.Machine

/-! ### One byte more -/

/-- A buffer's last byte, after the others. -/
theorem feedBytes_concat {b : Byte} {bs : List Byte} {s t u : State} (hu : feedBytes bs s = .next u)
    (ht : execRxByte b u.takeAll = .next t) : feedBytes (bs ++ [b]) s = .next t.takeAll := by
  rw [feedBytes_append, hu, andThen_next, feedBytes, ht]
  rfl

/-- The state with one byte more counted and every event taken. -/
def State.counted (s : State) : State := { s with byteCount := s.byteCount + 1, untaken := [] }

section Counted
variable {b : Byte} {bs : List Byte} {s : State} {len : Half} (hb : s.params.syncBudget ≤ 4095)
  (hroom : s.byteCount.toNat + 1 < s.params.syncBudget)
include hb hroom

theorem State.counted_byteCount_toNat : s.counted.byteCount.toNat = s.byteCount.toNat + 1 :=
  toNat_add_one (by omega)

/-- A byte inside the budget that emits nothing, before the others. -/
theorem feedBytes_cons_silent {t : State} (hp : t.params = s.params) (hc : t.byteCount = s.byteCount)
    (h : execRxByte b s.takeAll = .next (afterByte t.takeAll [])) :
    feedBytes (b :: bs) s = feedBytes bs t.counted := by
  rw [feedBytes, h, andThen_next, afterByte_inside t.takeAll []
    (by rw [State.takeAll_byteCount, State.takeAll_params, hp, hc]; exact hroom)
    (by rw [State.takeAll_params, hp]; exact hb),
    List.append_nil]
  rfl

theorem feedBytes_sync (hs : s.rxState = .idle) (hsync : b = s.params.syncByte) :
    feedBytes (b :: bs) s = feedBytes bs (State.counted { s with rxState := .readAddress }) := by
  have hbyte := rxByteInIdle s.takeAll b hs
  rw [if_pos (show b = s.takeAll.params.syncByte from hsync)] at hbyte
  exact feedBytes_cons_silent hb hroom rfl rfl hbyte

theorem feedBytes_discarded (hs : s.rxState = .idle) (hne : b ≠ s.params.syncByte) :
    feedBytes (b :: bs) s = feedBytes bs s.counted := by
  have hbyte := rxByteInIdle s.takeAll b hs
  rw [if_neg (show b ≠ s.takeAll.params.syncByte from hne), ← hs] at hbyte
  exact feedBytes_cons_silent hb hroom rfl rfl hbyte

theorem feedBytes_accepted (hs : s.rxState = .readAddress)
    (h : b = s.params.bcastAddr ∨ s.addrAssigned = false ∨ b = s.devAddr) :
    feedBytes (b :: bs) s = feedBytes bs (State.counted
      { s with rxAddr := b, rxCrc := crc8Step s.params s.params.crcInit b, rxState := .readCommand }) :=
  feedBytes_cons_silent hb hroom rfl rfl ((rxByteInReadAddress s.takeAll b hs).1 h)

theorem feedBytes_rejected (hs : s.rxState = .readAddress)
    (h : ¬(b = s.params.bcastAddr ∨ s.addrAssigned = false ∨ b = s.devAddr)) :
    feedBytes (b :: bs) s = feedBytes bs (State.counted { s with rxState := .idle }) :=
  feedBytes_cons_silent hb hroom rfl rfl ((rxByteInReadAddress s.takeAll b hs).2 h)

theorem feedBytes_command (hs : s.rxState = .readCommand) :
    feedBytes (b :: bs) s = feedBytes bs (State.counted
      { s with rxCmd := b, rxCrc := crc8Step s.params s.rxCrc b, rxState := .readLengthLow }) :=
  feedBytes_cons_silent hb hroom rfl rfl ((rxByteInReadCommandAndLengthLow s.takeAll b).1 hs)

theorem feedBytes_lengthLow (hs : s.rxState = .readLengthLow) :
    feedBytes (b :: bs) s = feedBytes bs (State.counted
      { s with rxLen := b.setWidth 16, rxCrc := crc8Step s.params s.rxCrc b, rxState := .readLengthHigh }) :=
  feedBytes_cons_silent hb hroom rfl rfl (execRxByte_counts b s.takeAll _ [] (decodeStep_readLengthLow b s.takeAll hs))

/-- The high byte of a length that fits `RxBuf`. -/
theorem feedBytes_lengthHigh (hs : s.rxState = .readLengthHigh) (hlen : lengthOf b (lengthLow s.rxLen) = len)
    (hfits : len.toNat ≤ s.params.rxPayloadMax) :
    feedBytes (b :: bs) s = feedBytes bs (State.counted
      { s with rxLen := len, rxIdx := 0, rxCrc := crc8Step s.params s.rxCrc b,
               rxState := if len = 0 then .readCrc else .readPayload }) := by
  subst hlen
  refine feedBytes_cons_silent hb hroom rfl rfl (execRxByte_counts b s.takeAll _ [] ?_)
  rw [decodeStep_readLengthHigh b s.takeAll hs, decodeLengthHigh_fits b s.takeAll hfits]
  rfl

end Counted

/-! ### The whole buffer -/

theorem takeAll_keeps_inv (s : State) (h : StateInv s) : StateInv s.takeAll :=
  h.with_interface s.out [] s.takes s.port ⟨Nat.zero_le 2, s.out, (List.append_nil _).symm⟩

/-- In a state of the invariant every byte is consumed. -/
theorem feedBytes_completes (bytes : List Byte) (s : State) (h : StateInv s) :
    ∃ t, feedBytes bytes s = .next t := by
  induction bytes generalizing s with
  | nil => exact ⟨s, rfl⟩
  | cons b bs ih =>
    have hs := takeAll_keeps_inv s h
    obtain ⟨-, hrx, -⟩ := (stateInv_iff _).1 hs
    obtain ⟨t, ht⟩ := execRxByte_completes b s.takeAll hrx
    rw [feedBytes, ht, andThen_next]
    exact ih _ (takeAll_keeps_inv t (exec_keeps_inv (.rxByte b) _ t hs rfl ht))

/-- The three framing errors of R230. -/
theorem eventClass_eq_framingError_iff (e : Event) :
    eventClass e = .framingError ↔ e = .crcError ∨ e = .lenError ∨ e = .budgetExhausted := by
  cases e <;> simp [eventClass]

theorem feedResultOf_eq_framingError_iff (es : List Event) :
    feedResultOf es = .framingError ↔ .crcError ∈ es ∨ .lenError ∈ es ∨ .budgetExhausted ∈ es := by
  have hany : feedResultOf es = .framingError ↔ ∃ e ∈ es, eventClass e = .framingError := by
    simp [feedResultOf]
  rw [hany]
  simp only [eventClass_eq_framingError_iff]
  constructor
  · rintro ⟨e, he, rfl | rfl | rfl⟩
    · exact .inl he
    · exact .inr (.inl he)
    · exact .inr (.inr he)
  · rintro (he | he | he)
    · exact ⟨_, he, .inl rfl⟩
    · exact ⟨_, he, .inr (.inl rfl)⟩
    · exact ⟨_, he, .inr (.inr rfl)⟩

/-- Settles O38: a run of bytes goes on whatever was emitted, and its result is read off the events. -/
theorem feedConsumesEveryByte : Obligations.FeedConsumesEveryByte := by
  refine ⟨fun s => rfl, fun bytes b s => feedBytes_append bytes [b] s, fun bytes s h => ?_⟩
  obtain ⟨t, ht⟩ := feedBytes_completes bytes s h
  exact ⟨t, feedResultOf (newEvents s t), by rw [feed, ht, andThen_next], ht, feedResultOf_eq_framingError_iff _⟩

/-! ### Noise -/

/-- Bytes other than the sync byte, inside the budget, only count. -/
theorem feedBytes_noise (noise : List Byte) (s : State) (hs : s.rxState = .idle)
    (hnoise : ∀ x ∈ noise, x ≠ s.params.syncByte) (hb : s.params.syncBudget ≤ 4095)
    (hroom : s.byteCount.toNat + noise.length < s.params.syncBudget) :
    ∃ u, feedBytes noise s = .next u ∧ u.rxState = .idle ∧ u.params = s.params ∧ u.out = s.out ∧
      u.byteCount.toNat = s.byteCount.toNat + noise.length := by
  induction noise generalizing s with
  | nil => exact ⟨s, rfl, hs, rfl, rfl, rfl⟩
  | cons x noise ih =>
    obtain ⟨hx, hrest⟩ := List.forall_mem_cons.1 hnoise
    rw [List.length_cons] at hroom
    have hcounted := State.counted_byteCount_toNat hb (by omega)
    rw [feedBytes_discarded hb (by omega) hs hx]
    obtain ⟨u, hfeed, hidle, hp, hout, hcount⟩ := ih s.counted hs hrest hb
      (by rw [hcounted]; simp only [State.counted]; omega)
    exact ⟨u, hfeed, hidle, hp, hout, by rw [hcount, hcounted, List.length_cons]; omega⟩

/-- Settles O34: every byte before the last only counts, and the last, whatever byte it is, uses up the budget. -/
theorem noiseExhaustsTheBudget : Obligations.NoiseExhaustsTheBudget := by
  intro s noise b hw hs hnoise _ hlast
  obtain ⟨-, -, -, -, -, -, -, hb, -⟩ := params_ranges _ hw
  obtain ⟨u, hfeed, hidle, hp, hout, hcount⟩ := feedBytes_noise noise s hs hnoise hb (by omega)
  rw [← hp] at hb hlast
  have hexec := (rxByteInIdle u.takeAll b hidle).trans
    (congrArg _ (afterByte_exhausts _ [] ((congrArg (· + 1) hcount).trans hlast) hb))
  exact ⟨u, _, hfeed, newEvents_of_append s u [] (by rw [hout, List.append_nil]), feedBytes_concat hfeed hexec,
    newEvents_of_append s _ [.budgetExhausted] (congrArg (· ++ [Event.budgetExhausted]) hout), rfl, rfl⟩

/-! ### A foreign address -/

/-- Settles O37: the sync byte opens the frame, the filter rejects its address, and both bytes count. -/
theorem foreignFrameIsDroppedAtItsAddress : Obligations.ForeignFrameIsDroppedAtItsAddress := by
  intro s a hw hs hassigned hdev hbcast hroom
  obtain ⟨-, -, -, -, -, -, -, hb, -⟩ := params_ranges _ hw
  have hreject : ¬(a = s.params.bcastAddr ∨ s.addrAssigned = false ∨ a = s.devAddr) := by
    simp [hbcast, hassigned, hdev]
  have hfed := Eq.trans (feedBytes_sync (b := s.params.syncByte) (bs := [a]) hb (by omega) hs rfl)
    (feedBytes_rejected hb (by simp only [State.counted]; bv_omega) rfl hreject)
  refine ⟨_, hfed, newEvents_of_append s _ [] (List.append_nil _).symm, rfl, ?_, rfl, rfl⟩
  simp only [State.counted]
  bv_omega

/-! ### A frame -/

/-- The sync byte and the header of a frame, inside the budget: the decoder takes the address, the command and the
length, and the register runs over them (R122 to R126). -/
theorem feedBytes_header (s : State) (a c : Byte) (len : Half) (bs : List Byte) (hs : s.rxState = .idle)
    (haccept : a = s.params.bcastAddr ∨ s.addrAssigned = false ∨ a = s.devAddr)
    (hfits : len.toNat ≤ s.params.rxPayloadMax) (hroom : s.byteCount.toNat + 5 < s.params.syncBudget)
    (hb : s.params.syncBudget ≤ 4095) :
    feedBytes (s.params.syncByte :: [a, c, lengthLow len, lengthHigh len] ++ bs) s = feedBytes bs
      { s with
        rxState := if len = 0 then .readCrc else .readPayload
        rxAddr := a
        rxCmd := c
        rxLen := len
        rxIdx := 0
        rxCrc := crcRun s.params s.params.crcInit [a, c, lengthLow len, lengthHigh len]
        byteCount := s.byteCount + 5
        untaken := [] } := by
  refine Eq.trans (feedBytes_sync hb (by omega) hs rfl) ?_
  refine Eq.trans (feedBytes_accepted hb (by simp only [State.counted]; bv_omega) rfl haccept) ?_
  refine Eq.trans (feedBytes_command hb (by simp only [State.counted]; bv_omega) rfl) ?_
  refine Eq.trans (feedBytes_lengthLow hb (by simp only [State.counted]; bv_omega) rfl) ?_
  refine Eq.trans (feedBytes_lengthHigh hb (by simp only [State.counted]; bv_omega) rfl (by simp [State.counted])
    hfits) ?_
  simp only [State.counted, BitVec.add_assoc]
  rfl

/-- A whole frame but its CRC byte, inside the budget: the payload is in `RxBuf`, the register has run over the address,
the command, the length and the payload, and the CRC byte is next. -/
theorem feedBytes_frameHead (s : State) (a c : Byte) (payload : List Byte) (hw : s.params.wellFormed = true)
    (hs : s.rxState = .idle) (haccept : a = s.params.bcastAddr ∨ s.addrAssigned = false ∨ a = s.devAddr)
    (hfits : payload.length ≤ s.params.rxPayloadMax)
    (hroom : s.byteCount.toNat + payload.length + 5 < s.params.syncBudget) :
    feedBytes (s.params.syncByte :: frameHead a c payload) s = .next
      { s with
        rxState := .readCrc
        rxAddr := a
        rxCmd := c
        rxLen := BitVec.ofNat 16 payload.length
        rxIdx := BitVec.ofNat 16 payload.length
        rxCrc := crcRun s.params s.params.crcInit (frameHead a c payload)
        rxBuf := Store.writeRun s.rxBuf 0 payload
        byteCount := BitVec.ofNat 12 (s.byteCount.toNat + payload.length + 5)
        untaken := [] } := by
  obtain ⟨-, -, -, -, -, hmax, -, hb, -⟩ := params_ranges _ hw
  have hlen : (BitVec.ofNat 16 payload.length).toNat = payload.length := Nat.mod_eq_of_lt (by omega)
  have hcount : (s.byteCount + 5).toNat = s.byteCount.toNat + 5 := by bv_omega
  refine Eq.trans (feedBytes_header s a c _ payload hs haccept (hlen.trans_le hfits) (by omega) hb) ?_
  cases payload with
  | nil =>
    have hbytes : s.byteCount + 5 = BitVec.ofNat 12 (s.byteCount.toNat + ([] : List Byte).length + 5) := by
      rw [← BitVec.toNat_inj, hcount, BitVec.toNat_ofNat, Nat.mod_eq_of_lt (by omega)]
      rfl
    rw [hbytes]
    rfl
  | cons x xs =>
    have hne : BitVec.ofNat 16 (x :: xs).length ≠ 0 := fun h => by
      rw [h] at hlen
      cases hlen
    rw [if_neg hne]
    refine Eq.trans (feedBytes_payload (x :: xs) _ rfl (List.cons_ne_nil x xs) ((Nat.zero_add _).trans hlen.symm)
      (hlen.trans_le hfits) hb (by simp only [hcount]; omega)) ?_
    simp only [hcount, ← crcRun_append, Nat.add_right_comm]
    rfl

/-- Changing a payload byte changes the CRC of the frame. -/
theorem crc8_frameHead_ne (p : Params) (hp : p.crcPoly.getLsbD 0 = true) (a c : Byte) (m n : List Byte) (x y : Byte)
    (hne : x ≠ y) : crc8 p (frameHead a c (m ++ x :: n)) ≠ crc8 p (frameHead a c (m ++ y :: n)) := by
  have hlen : (m ++ y :: n).length = (m ++ x :: n).length := by simp
  simp only [frameHead, hlen, ← List.append_assoc]
  exact crcDetectsAnyOneChangedByte p _ n x y hp hne

/-- A byte that is not the frame's CRC, inside the budget: the frame is refused, and nothing else is reported. -/
theorem feedBytes_wrong_crc {b : Byte} {bs : List Byte} {s v : State} (hfed : feedBytes bs s = .next v)
    (hs : v.rxState = .readCrc) (hne : b ≠ v.rxCrc ^^^ v.params.crcXorout) (hout : v.out = s.out)
    (hb : v.params.syncBudget ≤ 4095) (hroom : v.byteCount.toNat + 1 < v.params.syncBudget) :
    ∃ t, feedBytes (bs ++ [b]) s = .next t ∧ newEvents s t = [.crcError] ∧ t.rxState = .idle := by
  have hbyte := (execRxByte_wrong_crc b v.takeAll hs hne).trans (congrArg _ (afterByte_inside _ _ hroom hb))
  exact ⟨_, feedBytes_concat hfed hbyte,
    newEvents_of_append s _ [.crcError] (congrArg (· ++ [Event.crcError]) hout), rfl⟩

/-- Settles O36: the register has run over the changed payload, so the sent CRC byte is not the one it expects. -/
theorem corruptedPayloadIsNotDelivered : Obligations.CorruptedPayloadIsNotDelivered := by
  intro s a c m n x y hw hp hs haccept hfits hne hroom
  obtain ⟨-, -, -, -, -, -, -, hb, -⟩ := params_ranges _ hw
  have hlen : (m ++ y :: n).length = (m ++ x :: n).length := by simp
  rw [← hlen] at hfits hroom
  have hfed := feedBytes_frameHead s a c (m ++ y :: n) hw hs haccept hfits (by omega)
  refine feedBytes_wrong_crc hfed rfl (crc8_frameHead_ne s.params hp a c m n x y hne) rfl hb ?_
  rw [BitVec.toNat_ofNat, Nat.mod_eq_of_lt (by omega)]
  exact hroom

end Sys2Proof.Machine
end

