-- ==== Sys2Proof/Proofs/UpdateQueue.lean ====
section
/-! SUPPORT. Q_PUSH, Q_POP and Q_CLEAR (spec/41_queue.md R160 to R162) on the abstract queue, and runs of pushes and of
pops (R163). -/

namespace Sys2Proof.Machine

theorem qEmpty_eq_true_iff (s : State) : qEmpty s = true ↔ qCount s = 0 := beq_iff_eq

theorem qFull_eq_true_iff (s : State) : qFull s = true ↔ qCount s = s.params.uqCapacity := beq_iff_eq

theorem qCount_le_uqCapacity (s : State) : qCount s ≤ s.params.uqCapacity :=
  (countStaysWithinTheCapacity s).1

/-! ### Q_CLEAR -/

/-- Settles O44: equal pointers make a count of 0, and a valid capacity is not 0. -/
theorem clearEmptiesTheQueue : Obligations.ClearEmptiesTheQueue := by
  intro s hw
  obtain ⟨hcap, -⟩ := params_ranges _ hw
  have hcount : qCount { s with qHead := 0, qTail := 0 } = 0 := qCount_of_pointers_zero _ rfl rfl
  refine ⟨_, rfl, rfl, ?_, (qEmpty_eq_true_iff _).2 hcount, ?_⟩
  · rw [← List.length_eq_zero_iff, length_absQueue, hcount]
  · rw [← Bool.not_eq_true, qFull_eq_true_iff, hcount]
    simp only
    omega

/-! ### Q_PUSH -/

/-- The state with the entry in the head slot and the head moved on. -/
def State.afterPush (s : State) (e : Entry) : State :=
  { s with slots := Store.write s.slots s.qHead.toNat e, qHead := ringNext s s.qHead }

/-- Q_PUSH on a full queue. -/
theorem execQPush_full (id : Byte) (v : Value32) (s : State) (h : qCount s = s.params.uqCapacity) :
    execQPush id v s = .next s :=
  if_pos ((qFull_eq_true_iff s).2 h)

/-- Q_PUSH on a queue that is not full, its head inside the ring. -/
theorem execQPush_appends (id : Byte) (v : Value32) (s : State) (hh : s.qHead.toNat < ringSize s.params)
    (h : qCount s ≠ s.params.uqCapacity) : execQPush id v s = .next (s.afterPush ⟨id, v⟩) := by
  rw [execQPush, if_neg (mt (qFull_eq_true_iff s).1 h), (storeSlot_eq_next _ _ _ _).2 ⟨hh, rfl⟩]
  rfl

/-- Settles O42: the entry goes to the head slot, which is the one after the newest. -/
theorem pushAppendsOrIsDropped : Obligations.PushAppendsOrIsDropped := by
  intro s id v hinv
  obtain ⟨-, hcap, -⟩ := params_ranges _ hinv.params
  refine ⟨fun hlt => ?_, execQPush_full id v s⟩
  have hroom : qCount s ≠ s.params.uqCapacity := Nat.ne_of_lt hlt
  have hcount : qCount (s.afterPush ⟨id, v⟩) = qCount s + 1 := qCount_push s _ hcap hinv.qHead hinv.qTail hroom
  refine ⟨_, _, execQPush_appends id v s hinv.qHead hroom, rfl, Store.read_write_self _ _ _,
    fun i hi => Store.read_write_other _ _ _ _ hi, absQueue_push s ⟨id, v⟩ hcap hinv.qHead hinv.qTail hroom, hcount,
    ?_, ?_⟩
  · rw [← Bool.not_eq_true, qEmpty_eq_true_iff, hcount]
    exact Nat.succ_ne_zero _
  · rw [qFull_eq_true_iff, hcount]
    rfl

/-! ### Q_POP -/

/-- The state with the tail moved on and the entry at the old tail reported. -/
def State.afterPop (s : State) : State :=
  State.emit { s with qTail := ringNext s s.qTail }
    [.popped (slotEntry s s.qTail.toNat).id (slotEntry s s.qTail.toNat).value]

/-- Q_POP on an empty queue. -/
theorem execQPop_empty (s : State) (h : qCount s = 0) : execQPop s = .next (s.emit [.popEmpty]) := by
  rw [execQPop, popEntry_empty s h, andThen_next]

/-- Q_POP on a queue that holds an entry, its tail inside the ring. -/
theorem execQPop_holds (s : State) (h : qCount s ≠ 0) (ht : s.qTail.toNat < ringSize s.params) :
    execQPop s = .next s.afterPop := by
  rw [execQPop, popEntry_holds s h ht, andThen_next]
  rfl

/-- Settles O43: the entry at the tail is the oldest. -/
theorem popReportsTheOldestOrEmpty : Obligations.PopReportsTheOldestOrEmpty := by
  intro s hinv
  obtain ⟨-, hcap, -⟩ := params_ranges _ hinv.params
  refine ⟨fun hne => ?_, execQPop_empty s⟩
  have hcount : qCount s.afterPop + 1 = qCount s := qCount_pop s hcap hinv.qHead hinv.qTail hne
  have hle : qCount s ≤ s.afterPop.params.uqCapacity := qCount_le_uqCapacity s
  refine ⟨slotEntry s s.qTail.toNat, s.afterPop, execQPop_holds s hne hinv.qTail,
    absQueue_pop s hcap hinv.qHead hinv.qTail hne, rfl, by omega, ?_, ?_⟩
  · rw [← Bool.not_eq_true, qFull_eq_true_iff]
    omega
  · rw [qEmpty_eq_true_iff]
    omega

/-! ### Runs of pushes and of pops -/

/-- What a run of pushes leaves: of the queue followed by the new entries, as many as the capacity (R163 law 2). -/
theorem pushAll_completes (es : List Entry) (s : State) (hc : s.params.uqCapacity ≤ 255) (hq : QueueInv s) :
    ∃ t, pushAll es s = .next t ∧ QueueInv t ∧ t.params = s.params ∧ t.out = s.out ∧
      absQueue t = (absQueue s ++ es).take s.params.uqCapacity := by
  induction es generalizing s with
  | nil =>
    have hle : (absQueue s).length ≤ s.params.uqCapacity := (length_absQueue s).trans_le (qCount_le_uqCapacity s)
    exact ⟨s, rfl, hq, rfl, rfl, by rw [List.append_nil, List.take_of_length_le hle]⟩
  | cons e es ih =>
    by_cases hfull : qCount s = s.params.uqCapacity
    · obtain ⟨t, hpush, hqt, hp, hout, habs⟩ := ih s hc hq
      have hlen : s.params.uqCapacity ≤ (absQueue s).length := by rw [length_absQueue, hfull]
      refine ⟨t, by rw [pushAll, execQPush_full _ _ _ hfull, andThen_next, hpush], hqt, hp, hout, ?_⟩
      rw [habs, List.take_append_of_le_length hlen, List.take_append_of_le_length hlen]
    · have happend : absQueue (s.afterPush e) = absQueue s ++ [e] := absQueue_push s e hc hq.qHead hq.qTail hfull
      obtain ⟨t, hpush, hqt, hp, hout, habs⟩ := ih (s.afterPush e) hc (hq.push hc hfull e)
      refine ⟨t, by rw [pushAll, execQPush_appends _ _ _ hq.qHead hfull, andThen_next, hpush], hqt, hp, hout, ?_⟩
      rw [habs, happend, List.append_assoc, List.singleton_append]
      rfl

/-- What a run of pops, one more than the queue holds, reports: every entry, oldest first, then `PopEmpty` (R161). -/
theorem popTimes_completes (es : List Entry) (s : State) (hc : s.params.uqCapacity ≤ 255) (hq : QueueInv s)
    (hes : absQueue s = es) :
    ∃ t, popTimes (es.length + 1) s = .next t ∧
      t.out = s.out ++ (es.map (fun e => .popped e.id e.value) ++ [.popEmpty]) := by
  induction es generalizing s with
  | nil =>
    have hempty : qCount s = 0 := by rw [← length_absQueue, hes, List.length_nil]
    exact ⟨_, by rw [popTimes, execQPop_empty s.takeAll hempty, andThen_next]; rfl, rfl⟩
  | cons e es ih =>
    have hne : qCount s ≠ 0 := by simp [← length_absQueue, hes]
    obtain ⟨rfl, hrest⟩ := List.cons.inj (hes.symm.trans (absQueue_pop s hc hq.qHead hq.qTail hne))
    have hinv : QueueInv s.takeAll.afterPop :=
      (hq.advance hc 1 (Nat.pos_of_ne_zero hne)).of_same rfl ⟨rfl, rfl, rfl⟩
    obtain ⟨t, hpops, hout⟩ := ih s.takeAll.afterPop hc hinv hrest.symm
    refine ⟨t, by rw [List.length_cons, popTimes, execQPop_holds s.takeAll hne hq.qTail, andThen_next, hpops], ?_⟩
    rw [hout, State.afterPop, State.emit_out, List.append_assoc]
    rfl

/-- Settles O46: of the entries pushed the first `UQ_CAPACITY` stay, and the pops report what is there. -/
theorem overfilledQueueYieldsTheFirstInOrder : Obligations.OverfilledQueueYieldsTheFirstInOrder := by
  intro s es hinv hempty hlen
  obtain ⟨hw, -, hq, -⟩ := (stateInv_iff s).1 hinv
  obtain ⟨-, hcap, -⟩ := params_ranges _ hw
  obtain ⟨t, hpush, hqt, hp, hout, habs⟩ := pushAll_completes es s hcap hq
  have hnil : absQueue s = [] := List.eq_nil_of_length_eq_zero (by rw [length_absQueue, hempty])
  rw [hnil, List.nil_append] at habs
  obtain ⟨u, hpop, hreports⟩ := popTimes_completes _ t (by rw [hp]; exact hcap) hqt habs
  rw [List.length_take_of_le hlen] at hpop
  exact ⟨t, u, hpush, habs, newEvents_of_append s t [] (by rw [hout, List.append_nil]), hpop,
    newEvents_of_append t u _ hreports⟩

end Sys2Proof.Machine
end

