-- ==== Sys2Proof/Proofs/Transmit.lean ====
section
/-! SUPPORT. TXB_WR and TX_SEND (spec/42_transmit.md R190 to R192), and a sent frame in a decoder (R199). -/

namespace Sys2Proof.Machine

/-! ### TXB_WR -/

/-- TXB_WR outside the buffer only reports (R191). -/
theorem exec_txbWr_of_ge (s : State) (i : Half) (b : Byte) (h : s.params.txPayloadMax ≤ i.toNat) :
    exec (.txbWr i b) s = .next (s.emit [.txRangeError]) :=
  if_pos h

/-- Settles O47: inside the buffer TXB_WR is one write, outside it one report. -/
theorem txbWrWritesOneByteOrReports : Obligations.TxbWrWritesOneByteOrReports := fun s i b =>
  ⟨fun hin => ⟨_, exec_txbWr_of_lt s i b hin, Store.read_write_self _ _ _,
    fun k hk => Store.read_write_other _ _ k _ hk⟩, exec_txbWr_of_ge s i b⟩

/-! ### TX_SEND -/

/-- TX_SEND of a length that `TxBuf` can hold is SendFrame (R192). -/
theorem exec_txSend_of_le (s : State) (a c : Byte) (len : Half) (h : len.toNat ≤ s.params.txPayloadMax) :
    exec (.txSend a c len) s = sendFrame a c len.toNat s :=
  if_neg (Nat.not_lt.2 h)

/-- TX_SEND of a greater length only reports (R192). -/
theorem exec_txSend_of_gt (s : State) (a c : Byte) (len : Half) (h : s.params.txPayloadMax < len.toNat) :
    exec (.txSend a c len) s = .next (s.emit [.txLenError]) :=
  if_pos h

theorem lengthLow_eq_ofNat (len : Half) : lengthLow len = BitVec.ofNat 8 (len.toNat % 256) := by
  rw [← lengthLow_toNat, BitVec.ofNat_toNat, BitVec.setWidth_eq]

theorem lengthHigh_eq_ofNat (len : Half) : lengthHigh len = BitVec.ofNat 8 (len.toNat / 256) := by
  rw [← lengthHigh_toNat, BitVec.ofNat_toNat, BitVec.setWidth_eq]

/-- The head of a frame with its length bytes as numbers, low byte first (spec/20_memory.md R62, spec/30_encoding.md
R86). -/
theorem frameHead_eq_of_length (a c : Byte) (payload : List Byte) (n : Nat) (hn : payload.length = n)
    (h16 : n < 2 ^ 16) :
    frameHead a c payload = [a, c, BitVec.ofNat 8 (n % 256), BitVec.ofNat 8 (n / 256)] ++ payload := by
  have hword : (BitVec.ofNat 16 n).toNat = n := Nat.mod_eq_of_lt h16
  rw [frameHead, hn, lengthLow_eq_ofNat, lengthHigh_eq_ofNat, hword]

/-- SendFrame faults at the first byte of the payload that was never written (R190, U1). -/
theorem sendFrame_unwritten (a c : Byte) (len i : Nat) (s : State) (hi : i < len) (hnone : Store.read s.txBuf i = none)
    (hfirst : ∀ k, k < i → Store.read s.txBuf k ≠ none) : sendFrame a c len s = .fault (.unwrittenTxByte i) := by
  have hload := loadTxRun_fault s.txBuf 0 len i hi (by rwa [Nat.zero_add])
    (fun k hk => by rw [Nat.zero_add]; exact hfirst k hk)
  rw [sendFrame, hload, andThen_fault, Nat.zero_add]

/-- Settles O48: SendFrame of the staged payload, SendFrame at a byte never written, and the length error. -/
theorem txSendSendsTheStagedPayload : Obligations.TxSendSendsTheStagedPayload := by
  intro s a c len
  refine ⟨?_, ?_, exec_txSend_of_gt s a c len⟩
  · intro payload hlen hpayload hread body writes
    have hhead : frameHead a c payload = body := frameHead_eq_of_length a c payload _ hpayload len.isLt
    rw [exec_txSend_of_le s a c len hlen, sendFrame_staged a c _ s payload hpayload hread, frameBody, hhead]
    rfl
  · intro i hlen hi hnone hfirst
    rw [exec_txSend_of_le s a c len hlen, sendFrame_unwritten a c _ i s hi hnone hfirst]

/-! ### Loopback -/

/-- On the wire the two writes of SendFrame are one frame (R86, R190). -/
theorem wireBytes_sent (p : Params) (a c : Byte) (payload : List Byte) :
    wireBytes [.txWrite [p.syncByte], .txWrite (frameBody p a c payload)] = wireFrame p a c payload := by
  simp [wireBytes, transportWrites, wireFrame]

/-- A frame is its bytes up to the payload's last, then its CRC byte. -/
theorem wireFrame_eq_concat (p : Params) (a c : Byte) (payload : List Byte) :
    wireFrame p a c payload = (p.syncByte :: frameHead a c payload) ++ [crc8 p (frameHead a c payload)] := rfl

/-- A payload written from index 0 up is what `RxBuf` then holds. -/
theorem rxBufBytes_writeRun (s : State) (m : Memory) (payload : List Byte) (n : Nat) (hn : n = payload.length)
    (h : s.rxBuf = Store.writeRun m 0 payload) : rxBufBytes s n = payload := by
  subst hn
  have hread (k : Nat) (hk : k < payload.length) : Store.read s.rxBuf k = payload[k]? := by
    rw [h, Store.read_writeRun, if_pos (by omega), Nat.sub_zero]
  refine List.ext_getElem (length_rxBufBytes _ _) fun k hk hk' => ?_
  simp [rxBufBytes, rxBufByte, hread k hk', hk']

/-- The frame's CRC byte: the frame is delivered, nothing else is reported, and the count restarts (R128). -/
theorem feedBytes_right_crc {b : Byte} {bs payload : List Byte} {s v : State} (hfed : feedBytes bs s = .next v)
    (hs : v.rxState = .readCrc) (heq : b = v.rxCrc ^^^ v.params.crcXorout)
    (hfits : v.rxLen.toNat ≤ v.params.rxPayloadMax) (hpayload : rxBufBytes v v.rxLen.toNat = payload)
    (hout : v.out = s.out) :
    ∃ t, feedBytes (bs ++ [b]) s = .next t ∧ newEvents s t = [.frameOk v.rxAddr v.rxCmd payload] ∧
      t.rxState = .idle ∧ t.byteCount = 0 := by
  subst hpayload
  exact ⟨_, feedBytes_concat hfed (execRxByte_right_crc b v.takeAll hs hfits heq),
    newEvents_of_append s _ [_] (congrArg (· ++ [Event.frameOk _ _ _]) hout), rfl, rfl⟩

/-- A whole frame inside the budget: all bytes but the CRC byte are silent, and the CRC byte delivers the frame
(R128). -/
theorem feedBytes_wireFrame (s : State) (a c : Byte) (payload : List Byte) (hw : s.params.wellFormed = true)
    (hs : s.rxState = .idle) (haccept : a = s.params.bcastAddr ∨ s.addrAssigned = false ∨ a = s.devAddr)
    (hfits : payload.length ≤ s.params.rxPayloadMax)
    (hroom : s.byteCount.toNat + payload.length + 5 < s.params.syncBudget) :
    ∃ r t, feedBytes (wireFrame s.params a c payload).dropLast s = .next r ∧ newEvents s r = [] ∧
      feedBytes (wireFrame s.params a c payload) s = .next t ∧ newEvents s t = [.frameOk a c payload] ∧
      t.rxState = .idle ∧ t.byteCount = 0 := by
  obtain ⟨-, -, -, -, -, hmax, -⟩ := params_ranges _ hw
  have hlen : (BitVec.ofNat 16 payload.length).toNat = payload.length := Nat.mod_eq_of_lt (by omega)
  have hfed := feedBytes_frameHead s a c payload hw hs haccept hfits hroom
  obtain ⟨t, ht⟩ := feedBytes_right_crc (b := crc8 s.params (frameHead a c payload)) hfed rfl rfl
    (hlen.trans_le hfits) (rxBufBytes_writeRun _ _ payload _ hlen rfl) rfl
  rw [wireFrame_eq_concat, List.dropLast_concat]
  exact ⟨_, t, hfed, newEvents_of_append s _ [] (List.append_nil _).symm, ht⟩

/-- Settles O35: what TX_SEND writes is a frame, and the decoder takes it whole. -/
theorem loopbackDeliversTheSentFrame : Obligations.LoopbackDeliversTheSentFrame := by
  intro u v s a c len hsend hlen hp hw hfits hs haccept hroom
  rw [exec_txSend_of_le u a c len hlen] at hsend
  obtain ⟨payload, hpayload, hread, hsent⟩ | ⟨j, -, -, hfault⟩ := sendFrame_cases a c len.toNat u
  · obtain rfl := Host.Outcome.next.inj (hsent.symm.trans hsend)
    rw [← hpayload] at hfits hroom
    obtain ⟨r, t, hdelivered⟩ := feedBytes_wireFrame s a c payload hw hs haccept hfits hroom
    refine ⟨payload, r, t, hpayload, hread, ?_⟩
    rwa [newEvents_emit, wireBytes_sent, ← hp]
  · cases hfault.symm.trans hsend

end Sys2Proof.Machine
end

