-- ==== Sys2Proof/Proofs/FrameTick.lean ====
section
/-! SUPPORT. FRAME_TICK (spec/42_transmit.md R193 to R198): one idle tick, one drain tick, and runs of either. -/

namespace Sys2Proof.Machine

/-! ### Which tick -/

theorem execFrameTick_idle (s : State) (h : qCount s = 0) : execFrameTick s = idleTick s :=
  if_pos ((qEmpty_eq_true_iff s).2 h)

theorem execFrameTick_drain (s : State) (h : qCount s ≠ 0) : execFrameTick s = drainTick s :=
  if_neg (mt (qEmpty_eq_true_iff s).1 h)

/-! ### One idle tick -/

/-- Below the period the counter does not wrap. -/
theorem idleTicks_succ_toNat (s : State) (hw : s.params.wellFormed = true)
    (h : s.idleTicks.toNat < s.params.alivePeriod) : (s.idleTicks + 1).toNat = s.idleTicks.toNat + 1 := by
  obtain ⟨-, -, -, -, -, -, -, -, -, hperiod⟩ := params_ranges _ hw
  exact toNat_add_one (by omega)

/-- An idle tick before the last of the period (R196). -/
theorem execFrameTick_counts (s : State) (hw : s.params.wellFormed = true) (hq : qCount s = 0)
    (h : s.idleTicks.toNat + 1 < s.params.alivePeriod) :
    execFrameTick s = .next { s with idleTicks := s.idleTicks + 1 } := by
  have hnext := idleTicks_succ_toNat s hw (by omega)
  rw [execFrameTick_idle s hq, idleTick_counts s (by omega)]

/-- The state after the alive frame: its marker is staged at index 0 (R197, R198). -/
def State.afterAlive (s : State) : State :=
  State.emit { s with idleTicks := 0, txBuf := Store.write s.txBuf 0 s.params.aliveMarker }
    [.txWrite [s.params.syncByte],
      .txWrite (frameBody s.params s.devAddr s.params.cmdChainSync (alivePayload s.params))]

/-- The last idle tick of the period. -/
theorem execFrameTick_alive (s : State) (hw : s.params.wellFormed = true) (hq : qCount s = 0)
    (h : s.idleTicks.toNat + 1 = s.params.alivePeriod) : execFrameTick s = .next s.afterAlive := by
  have hnext := idleTicks_succ_toNat s hw (by omega)
  exact (execFrameTick_idle s hq).trans (idleTick_alive s hw (by omega))

/-- Settles O49: the tick counts, or it is the last of the period, and the alive frame has one payload byte. -/
theorem idleTickCountsOrSendsAlive : Obligations.IdleTickCountsOrSendsAlive := by
  intro s hw hq _
  refine ⟨execFrameTick_counts s hw hq, ?_⟩
  intro hlast body writes
  have hhead : frameHead s.devAddr s.params.cmdChainSync (alivePayload s.params) = body :=
    frameHead_eq_of_length _ _ _ 1 rfl (by decide)
  refine ⟨Store.write s.txBuf 0 s.params.aliveMarker, (execFrameTick_alive s hw hq hlast).trans ?_,
    Store.read_write_self _ _ _, fun k hk => Store.read_write_other _ _ k _ hk⟩
  rw [State.afterAlive, frameBody, hhead]
  rfl

/-! ### One drain tick -/

/-- How many updates a drain tick takes (R194). -/
def drainCount (s : State) : Nat := min (qCount s) (updMax s.params)

/-- The payload of a drain tick: the oldest updates (R195). -/
def drainPayload (s : State) : List Byte := dataUpdatePayload ((absQueue s).take (drainCount s))

/-- The state after a drain tick: the payload is staged from index 0 up, and its updates have left the queue (R193). -/
def State.afterDrain (s : State) : State :=
  State.emit
    { s with
      idleTicks := 0
      txBuf := Store.writeRun s.txBuf 0 (drainPayload s)
      qTail := BitVec.ofNat 8 ((s.qTail.toNat + drainCount s) % ringSize s.params) }
    [.txWrite [s.params.syncByte],
      .txWrite (frameBody s.params s.devAddr s.params.cmdDataUpdate (drainPayload s))]

section Drain
variable {s : State}

theorem drainCount_le_qCount : drainCount s ≤ qCount s := Nat.min_le_left _ _

theorem drainCount_pos (hw : s.params.wellFormed = true) (hne : qCount s ≠ 0) : 1 ≤ drainCount s := by
  obtain ⟨hpos, -⟩ := updMax_ranges _ hw
  exact Nat.le_min.2 ⟨Nat.pos_of_ne_zero hne, hpos⟩

theorem length_take_drainCount : ((absQueue s).take (drainCount s)).length = drainCount s := by
  rw [List.length_take, length_absQueue, Nat.min_eq_left drainCount_le_qCount]

theorem length_drainPayload : (drainPayload s).length = 1 + 5 * drainCount s := by
  rw [drainPayload, length_dataUpdatePayload, length_take_drainCount]

/-- The payload fits the frame's budget (R194). -/
theorem length_drainPayload_le (hw : s.params.wellFormed = true) :
    (drainPayload s).length ≤ s.params.framePayloadBudget := by
  obtain ⟨-, -, hfits⟩ := updMax_ranges _ hw
  have hle : drainCount s ≤ updMax s.params := Nat.min_le_right _ _
  rw [length_drainPayload]
  omega

/-- The first byte is the number of updates (R89). -/
theorem drainPayload_zero : (drainPayload s)[0]? = some (BitVec.ofNat 8 (drainCount s)) := by
  rw [drainPayload, dataUpdatePayload, length_take_drainCount, List.getElem?_cons_zero]

/-- Byte `j` of the `k`-th oldest update (R89). -/
theorem drainPayload_update {e : Entry} {k j : Nat} (hk : k < drainCount s) (he : (absQueue s)[k]? = some e)
    (hj : j < 5) : (drainPayload s)[j + 1 + 5 * k]? = (entryBytes e)[j]? := by
  rw [show j + 1 + 5 * k = 1 + 5 * k + j by omega]
  exact getElem?_dataUpdatePayload _ e k j (by rw [List.getElem?_take_of_lt hk, he]) hj

/-- What is left is the queue without the updates that were sent (R193). -/
theorem absQueue_afterDrain (hw : s.params.wellFormed = true) (hq : QueueInv s) :
    absQueue s.afterDrain = (absQueue s).drop (drainCount s) := by
  obtain ⟨-, hcap, -⟩ := params_ranges _ hw
  rw [← absQueue_drained _ s hcap hq.qHead hq.qTail drainCount_le_qCount]
  exact absQueue_congr _ _ rfl rfl rfl rfl rfl

/-- A tick of a queue that holds an update. -/
theorem execFrameTick_drains (hw : s.params.wellFormed = true) (hq : QueueInv s) (hne : qCount s ≠ 0) :
    execFrameTick s = .next s.afterDrain :=
  (execFrameTick_drain s hne).trans (drainTick_sends s hw hq.qHead hq.qTail _ rfl _ rfl)

/-- A queue that sent an update is not full. -/
theorem qFull_afterDrain (hw : s.params.wellFormed = true) (hq : QueueInv s) (hne : qCount s ≠ 0) :
    qFull s.afterDrain = false := by
  have hcount : qCount s.afterDrain = qCount s - drainCount s := by
    rw [← length_absQueue, absQueue_afterDrain hw hq, List.length_drop, length_absQueue]
  have hpos := drainCount_pos hw hne
  have hle : qCount s ≤ s.afterDrain.params.uqCapacity := qCount_le_uqCapacity s
  rw [← Bool.not_eq_true, qFull_eq_true_iff]
  omega

end Drain

/-- Settles O50: the tick sends the payload of the oldest updates, and the payload's layout is R89's. -/
theorem drainTickSendsTheOldestUpdates : Obligations.DrainTickSendsTheOldestUpdates := by
  intro s hinv hne n
  obtain ⟨hw, -, hq, -⟩ := (stateInv_iff s).1 hinv
  obtain ⟨-, -, -, hbudget, htx, -⟩ := params_ranges _ hw
  have hlen : (drainPayload s).length = 1 + 5 * n := length_drainPayload
  have hfits := length_drainPayload_le hw
  have hhead := frameHead_eq_of_length s.devAddr s.params.cmdDataUpdate (drainPayload s) _ hlen (by omega)
  have hupdate (k : Nat) (hk : k < n) : ∃ e, (absQueue s)[k]? = some e := by
    have hin : k < (absQueue s).length := by
      rw [length_absQueue]
      exact Nat.lt_of_lt_of_le hk drainCount_le_qCount
    exact ⟨_, List.getElem?_eq_getElem hin⟩
  refine ⟨drainPayload s, drainCount_pos hw hne, hlen, hfits, drainPayload_zero, ?_, ?_⟩
  · intro k hk
    obtain ⟨e, he⟩ := hupdate k hk
    exact ⟨e, he, drainPayload_update (j := 0) hk he (by decide), drainPayload_update (j := 1) hk he (by decide),
      drainPayload_update (j := 2) hk he (by decide), drainPayload_update (j := 3) hk he (by decide),
      drainPayload_update (j := 4) hk he (by decide)⟩
  · intro body writes
    refine ⟨Store.writeRun s.txBuf 0 (drainPayload s), s.afterDrain, execFrameTick_drains hw hq hne, ?_, ?_, ?_,
      absQueue_afterDrain hw hq, qFull_afterDrain hw hq hne⟩
    · rw [State.afterDrain, frameBody, hhead]
      rfl
    · intro i hi
      rw [Store.read_writeRun, if_pos (by omega), Nat.sub_zero]
    · intro i hi
      rw [Store.read_writeRun, if_neg (by omega)]

/-! ### Runs of ticks -/

theorem tickTimes_add (m n : Nat) (s : State) :
    tickTimes (m + n) s = andThen (tickTimes m s) (tickTimes n) := by
  induction m generalizing s with
  | zero => rw [Nat.zero_add]; rfl
  | succ m ih =>
    rw [Nat.succ_add, tickTimes, tickTimes, andThen_assoc]
    exact congrArg _ (funext ih)

/-- Ticks of an empty queue before the last of the period: each one counts, and nothing else happens but that earlier
events are taken. -/
theorem tickTimes_counts (k : Nat) (s : State) (hw : s.params.wellFormed = true) (hq : qCount s = 0)
    (h : s.idleTicks.toNat + k < s.params.alivePeriod) :
    ∃ n u, tickTimes k s = .next { s with idleTicks := n, untaken := u } ∧ n.toNat = s.idleTicks.toNat + k := by
  induction k generalizing s with
  | zero => exact ⟨s.idleTicks, s.untaken, rfl, rfl⟩
  | succ k ih =>
    have hnext := idleTicks_succ_toNat s hw (by omega)
    have htick := execFrameTick_counts s.takeAll hw hq (by simp only [State.takeAll]; omega)
    obtain ⟨n, u, hticks, hn⟩ := ih { s.takeAll with idleTicks := s.idleTicks + 1 } hw hq
      (by simp only [State.takeAll, hnext]; omega)
    refine ⟨n, u, ?_, by simp only [hnext] at hn; omega⟩
    rw [tickTimes, htick, andThen_next]
    exact hticks

/-- Settles O52: the ticks before the last of the period count, and the last sends the alive frame. -/
theorem aliveComesOnThePeriodThIdleTick : Obligations.AliveComesOnThePeriodThIdleTick := by
  intro s hinv hq hzero
  have hw := hinv.params
  have hticks0 : s.idleTicks.toNat = 0 := by rw [hzero]; rfl
  obtain ⟨-, -, -, -, -, -, -, -, hpos, -⟩ := params_ranges _ hw
  constructor
  · intro k hk
    obtain ⟨n, u, hticks, hn⟩ := tickTimes_counts k s hw hq (by omega)
    exact ⟨_, hticks, newEvents_of_append s _ [] (List.append_nil _).symm, by simp only; omega⟩
  · obtain ⟨n, u, hticks, hn⟩ := tickTimes_counts (s.params.alivePeriod - 1) s hw hq (by omega)
    have hlast := execFrameTick_alive (State.takeAll { s with idleTicks := n, untaken := u }) hw hq
      (by simp only [State.takeAll]; omega)
    have hrun : tickTimes s.params.alivePeriod s =
        .next (State.afterAlive (State.takeAll { s with idleTicks := n, untaken := u })) := by
      rw [← Nat.sub_add_cancel hpos, tickTimes_add, hticks, andThen_next, tickTimes, hlast]
      rfl
    exact ⟨_, hrun, rfl, newEvents_of_append s _ _ rfl⟩

/-- A drain tick with its earlier events taken keeps the invariant and takes up to `UPD_MAX` updates off the queue. -/
theorem execFrameTick_drops (s : State) (hinv : StateInv s) (hne : qCount s ≠ 0) :
    ∃ t, execFrameTick s.takeAll = .next t ∧ StateInv t ∧ t.params = s.params ∧
      absQueue t = (absQueue s).drop (updMax s.params) := by
  have htaken := takeAll_keeps_inv s hinv
  obtain ⟨hw, -, hq, -⟩ := (stateInv_iff _).1 htaken
  have htick := execFrameTick_drains hw hq hne
  have habs : absQueue s.takeAll.afterDrain = (absQueue s).drop (drainCount s) := absQueue_afterDrain hw hq
  refine ⟨_, htick, exec_keeps_inv .frameTick _ _ htaken rfl htick, rfl, habs.trans ?_⟩
  rw [List.drop_eq_drop_iff, length_absQueue]
  unfold drainCount
  omega

/-- Ticks that begin on a queue that is not yet empty: each one takes `UPD_MAX` updates, the last what is left. -/
theorem tickTimes_drops (k : Nat) (s : State) (hinv : StateInv s)
    (h : k * updMax s.params < qCount s + updMax s.params) :
    ∃ t, tickTimes k s = .next t ∧ absQueue t = (absQueue s).drop (k * updMax s.params) := by
  induction k generalizing s with
  | zero => exact ⟨s, rfl, by rw [Nat.zero_mul, List.drop_zero]⟩
  | succ k ih =>
    rw [Nat.succ_mul] at h ⊢
    obtain ⟨u, htick, hinvu, hp, habs⟩ := execFrameTick_drops s hinv (by omega)
    have hcount : qCount u = qCount s - updMax s.params := by
      rw [← length_absQueue, habs, List.length_drop, length_absQueue]
    obtain ⟨t, hticks, habst⟩ := ih u hinvu (by rw [hp]; omega)
    refine ⟨t, by rw [tickTimes, htick, andThen_next, hticks], ?_⟩
    rw [habst, habs, List.drop_drop, hp, Nat.add_comm]

/-- Of the counts up to `ceil(q / u)`, only the last one covers `q` in steps of `u`. -/
theorem eq_ceil_iff_le_mul (q u k : Nat) (hu : 0 < u) (hk : k ≤ (q + u - 1) / u) :
    k = (q + u - 1) / u ↔ q ≤ k * u := by
  rw [← Nat.ceilDiv_eq_add_pred_div] at hk ⊢
  rw [eq_comm, ← hk.ge_iff_eq', ceilDiv_le_iff_le_smul hu, smul_eq_mul, Nat.mul_comm]

/-- Settles O51: up to the quotient every tick finds an update, and only at the quotient none is left. -/
theorem drainTicksEmptyTheQueue : Obligations.DrainTicksEmptyTheQueue := by
  intro s k hinv
  obtain ⟨hpos, -⟩ := updMax_ranges _ hinv.params
  refine ⟨hpos, fun hk => ?_⟩
  have hmul := (Nat.le_div_iff_mul_le hpos).1 hk
  obtain ⟨t, hticks, habs⟩ := tickTimes_drops k s hinv (by omega)
  refine ⟨t, hticks, habs, ?_⟩
  rw [habs, List.drop_eq_nil_iff, length_absQueue, eq_ceil_iff_le_mul _ _ k hpos hk]

end Sys2Proof.Machine
end

