-- ==== Sys2Proof/Proofs/Completion.lean ====
section
/-! SUPPORT. In a state of the invariant everything completes but a TX_SEND of a byte never written
(spec/42_transmit.md R190, spec/93_implementation_defined.md U1). -/

namespace Sys2Proof.Machine

/-! ### Every operation -/

/-- The operation is a TX_SEND whose payload has a byte at `i` that was never written since reset (R190). -/
def SendsUnwritten (op : Instr) (s : State) (i : Nat) : Prop :=
  ∃ a c len, op = .txSend a c len ∧ i < len.toNat ∧ Store.read s.txBuf i = none

theorem execQPush_completes (id : Byte) (v : Value32) (s : State) (hq : QueueInv s) :
    ∃ t, execQPush id v s = .next t := by
  by_cases hfull : qCount s = s.params.uqCapacity
  · exact ⟨_, execQPush_full id v s hfull⟩
  · exact ⟨_, execQPush_appends id v s hq.qHead hfull⟩

theorem execQPop_completes (s : State) (hq : QueueInv s) : ∃ t, execQPop s = .next t := by
  by_cases hempty : qCount s = 0
  · exact ⟨_, execQPop_empty s hempty⟩
  · exact ⟨_, execQPop_holds s hempty hq.qTail⟩

theorem execFrameTick_completes (s : State) (hw : s.params.wellFormed = true) (hq : QueueInv s) (htx : TransmitInv s) :
    ∃ t, execFrameTick s = .next t := by
  by_cases hempty : qCount s = 0
  · rcases Nat.lt_or_eq_of_le (Nat.succ_le_of_lt htx.idleTicks) with hlt | hlast
    · exact ⟨_, execFrameTick_counts s hw hempty hlt⟩
    · exact ⟨_, execFrameTick_alive s hw hempty hlast⟩
  · exact ⟨_, execFrameTick_drains hw hq hempty⟩

theorem exec_txbWr_completes (i : Half) (b : Byte) (s : State) : ∃ t, exec (.txbWr i b) s = .next t := by
  rcases Nat.lt_or_ge i.toNat s.params.txPayloadMax with hin | hout
  · exact ⟨_, exec_txbWr_of_lt s i b hin⟩
  · exact ⟨_, exec_txbWr_of_ge s i b hout⟩

/-- TX_SEND completes, or faults at a byte of its payload that was never written. -/
theorem exec_txSend_cases (a c : Byte) (len : Half) (s : State) :
    (∃ t, exec (.txSend a c len) s = .next t) ∨
      ∃ i, i < len.toNat ∧ Store.read s.txBuf i = none ∧
        exec (.txSend a c len) s = .fault (.unwrittenTxByte i) := by
  rcases Nat.lt_or_ge s.params.txPayloadMax len.toNat with hover | hfits
  · exact .inl ⟨_, exec_txSend_of_gt s a c len hover⟩
  · rw [exec_txSend_of_le s a c len hfits]
    obtain ⟨payload, -, -, hsent⟩ | hfault := sendFrame_cases a c len.toNat s
    · exact .inl ⟨_, hsent⟩
    · exact .inr hfault

/-- In a state of the invariant every operation completes, but for TX_SEND of a byte never written. -/
theorem exec_completes_or_unwritten (op : Instr) (s : State) (hinv : StateInv s) :
    (∃ t, exec op s = .next t) ∨ ∃ i, SendsUnwritten op s i ∧ exec op s = .fault (.unwrittenTxByte i) := by
  obtain ⟨hw, hrx, hq, htx, -⟩ := (stateInv_iff s).1 hinv
  cases op with
  | rxByte b => exact .inl (execRxByte_completes b s hrx)
  | qPush id v => exact .inl (execQPush_completes id v s hq)
  | qPop => exact .inl (execQPop_completes s hq)
  | qClear => exact .inl ⟨_, rfl⟩
  | frameTick => exact .inl (execFrameTick_completes s hw hq htx)
  | setAddr a f => exact .inl ⟨_, rfl⟩
  | txbWr i b => exact .inl (exec_txbWr_completes i b s)
  | txSend a c len =>
    obtain hnext | ⟨i, hi, hnone, hfault⟩ := exec_txSend_cases a c len s
    · exact .inl hnext
    · exact .inr ⟨i, ⟨a, c, len, rfl, hi, hnone⟩, hfault⟩

/-! ### Every step -/

theorem performWord_illegal {w : OpWord} {why : IllegalReason} (s : State) (h : decodeWord w = .illegal why) :
    performWord w s = .next (s.emit [.illegalOp w]) := by
  simp [performWord, h, illegalOperation]

section Step
variable {s : State} (hw : s.params.wellFormed = true)
include hw

/-- A step with an event untaken. -/
theorem step_offers {e : Event} {es : List Event} (hu : s.untaken = e :: es) : step s = .next s.takeOffered := by
  simp [step, portStep, hw, hu]

/-- A step with nothing untaken and nothing presented. -/
theorem step_idle (hu : s.untaken = []) (hp : s.port = []) : step s = .next s := by
  simp [step, portStep, hw, hu, hp]

/-- A step with nothing untaken takes the next input off the port. -/
theorem step_accepts {p : PortInput} {rest : List PortInput} (hu : s.untaken = []) (hp : s.port = p :: rest) :
    step s = acceptInput p { s with port := rest } := by
  simp [step, portStep, hw, hu, hp]

/-- A step goes on, unless it performs a presented word that decodes to an operation. -/
theorem step_completes_or_performs :
    (∃ t, step s = .next t) ∨ ∃ w rest op, s.untaken = [] ∧ s.port = .operation w :: rest ∧
      decodeWord w = .operation op ∧ step s = exec op { s with port := rest } := by
  by_cases hu : s.untaken = []
  · by_cases hp : s.port = []
    · exact .inl ⟨s, step_idle hw hu hp⟩
    · obtain ⟨p, rest, hp⟩ := List.exists_cons_of_ne_nil hp
      cases p with
      | reset => exact .inl ⟨_, step_accepts hw hu hp⟩
      | resetWithOperation w => exact .inl ⟨_, step_accepts hw hu hp⟩
      | operation w =>
        cases hd : decodeWord w with
        | operation op => exact .inr ⟨w, rest, op, hu, hp, hd, stepRunsTheDecodedOperation s w rest op hw hu hp hd⟩
        | illegal why => exact .inl ⟨_, (step_accepts hw hu hp).trans (performWord_illegal _ hd)⟩
  · obtain ⟨e, es, hu⟩ := List.exists_cons_of_ne_nil hu
    exact .inl ⟨_, step_offers hw hu⟩

end Step

/-- Settles O17: a step that performs an operation stops only where the operation does. -/
theorem stepCompletesUnlessATransmitByteIsUnwritten : Obligations.StepCompletesUnlessATransmitByteIsUnwritten := by
  intro s hinv
  obtain hnext | ⟨w, rest, op, hu, hp, hd, hstep⟩ := step_completes_or_performs hinv.params
  · exact .inl hnext
  · rw [hstep]
    obtain hnext | ⟨i, ⟨a, c, len, rfl, hi, hnone⟩, hfault⟩ :=
      exec_completes_or_unwritten op _ (hinv.with_interface s.out s.untaken s.takes rest hinv.untaken)
    · exact .inl hnext
    · exact .inr ⟨w, rest, a, c, len, i, hu, hp, hd, hi, hnone, hfault⟩

end Sys2Proof.Machine
end

section
/-! SUPPORT. The error model (spec/60_exceptions.md): the result codes (R230), the stall of the event interface (R232),
the idle block (R241), and what an operation that reports an error leaves behind (R231, R234). -/

namespace Sys2Proof.Machine

/-! ### The result codes -/

/-- Settles O22: the rows of R230's table, each by evaluation. -/
theorem resultCodesOfTheEvents : Obligations.ResultCodesOfTheEvents :=
  ⟨rfl, rfl, rfl, rfl, fun _ => rfl, rfl, rfl, fun _ _ _ => rfl, fun _ => rfl, fun _ _ => rfl, rfl⟩

/-! ### Steps that perform no operation -/

/-- Settles O8: the step is the hand-over of the offered event, and an integrator that takes none stalls it. -/
theorem untakenEventStallsThePort : Obligations.UntakenEventStallsThePort := by
  intro s e es hw hu
  rw [step_offers hw hu]
  exact ⟨fun n hn => by rw [s.takeOffered_takes n e es hn hu], fun h0 => by rw [s.takeOffered_stalls h0]⟩

/-- Settles O11: with nothing to hand over and nothing presented, no branch of the step changes the state. -/
theorem idleBlockKeepsItsState : Obligations.IdleBlockKeepsItsState := fun _ hw hu hp => step_idle hw hu hp

/-! ### The events of one operation -/

/-- Any event of DecodeStep ends the frame, and none of them is an error of the command or the guard's event. -/
theorem decodeStep_reports {b : Byte} {s : State} {r : RxResult} {e : Event} (h : decodeStep b s = .next r)
    (he : e ∈ r.events) :
    eventClass e ≠ .operationError ∧ r.state.rxState = .idle ∧ e ≠ .budgetExhausted := by
  obtain ⟨-, ⟨-, hes⟩ | ⟨-, hes, hidle⟩ | ⟨-, hes, hidle⟩ | ⟨-, hidle, hes⟩⟩ := decodeStep_eq_next b s r h <;>
    rw [hes] at he
  · cases he
  all_goals
    obtain rfl := List.mem_singleton.1 he
    exact ⟨nofun, hidle, nofun⟩

/-- Any event of RX_BYTE leaves the decoder in `Idle`, and the guard's leaves the byte count at 0 (R231, R234). -/
theorem execRxByte_reports {b : Byte} {s t : State} {e : Event} (h : execRxByte b s = .next t)
    (he : e ∈ newEvents s t) :
    eventClass e ≠ .operationError ∧ t.rxState = .idle ∧ (e = .budgetExhausted → t.byteCount = 0) := by
  obtain ⟨r, hd, ht⟩ := (andThen_eq_next _ _ _).1 h
  obtain rfl := Host.Outcome.next.inj ht
  have hout : r.state.out = s.out := by
    obtain ⟨⟨_, _, _, _, _, _, _, hstate⟩, -⟩ := decodeStep_eq_next b s r hd
    rw [hstate]
  rcases guardBytes_cases r with ⟨-, hg⟩ | ⟨-, -, hg⟩ | ⟨-, -, hg⟩ <;>
    rw [hg] at he ⊢ <;> rw [newEvents_of_append _ _ _ (congrArg (· ++ _) hout)] at he
  · obtain ⟨hclass, hidle, -⟩ := decodeStep_reports hd he
    exact ⟨hclass, hidle, fun _ => rfl⟩
  · obtain he | he := List.mem_append.1 he
    · obtain ⟨hclass, -, -⟩ := decodeStep_reports hd he
      exact ⟨hclass, rfl, fun _ => rfl⟩
    · obtain rfl := List.mem_singleton.1 he
      exact ⟨nofun, rfl, fun _ => rfl⟩
  · obtain ⟨hclass, hidle, hne⟩ := decodeStep_reports hd he
    exact ⟨hclass, hidle, fun hbudget => absurd hbudget hne⟩

/-- Q_POP reports no error: an empty queue is a result (R230). -/
theorem execQPop_reports {s t : State} {e : Event} (h : execQPop s = .next t) (he : e ∈ newEvents s t) :
    eventClass e = .result := by
  obtain ⟨-, rfl⟩ | ⟨-, -, rfl⟩ := execQPop_eq_next s t h <;>
    rw [newEvents_of_append _ _ _ rfl] at he <;>
    obtain rfl := List.mem_singleton.1 he <;>
    rfl

/-- SendFrame reports transport writes only. -/
theorem sendFrame_reports {a c : Byte} {len : Nat} {s t : State} {e : Event} (h : sendFrame a c len s = .next t)
    (he : e ∈ newEvents s t) : eventClass e = .result := by
  obtain ⟨payload, -, ht⟩ := (andThen_eq_next _ _ _).1 h
  obtain rfl := Host.Outcome.next.inj ht
  rw [newEvents_emit] at he
  obtain rfl | rfl := List.mem_pair.1 he <;> rfl

/-- FRAME_TICK only counts, or ends in a SendFrame with nothing reported before it. -/
theorem execFrameTick_counts_or_sends {s t : State} (h : execFrameTick s = .next t) :
    t = { s with idleTicks := s.idleTicks + 1 } ∨
      ∃ a c len u, sendFrame a c len u = .next t ∧ u.out = s.out := by
  unfold execFrameTick at h
  split at h
  · simp only [idleTick] at h
    split at h
    · obtain ⟨u, hu, hsend⟩ := (andThen_eq_next _ _ _).1 h
      obtain ⟨-, rfl⟩ := (storeTx_eq_next _ _ _ _).1 hu
      exact .inr ⟨_, _, _, _, hsend, rfl⟩
    · exact .inl (Host.Outcome.next.inj h).symm
  · obtain ⟨u, hu, hdrain⟩ := (andThen_eq_next _ _ _).1 h
    obtain ⟨-, rfl⟩ := (storeTx_eq_next _ _ _ _).1 hu
    obtain ⟨v, hv, hsend⟩ := (andThen_eq_next _ _ _).1 hdrain
    obtain ⟨q, m, rfl⟩ := drainLoop_frame _ _ _ _ hv
    exact .inr ⟨_, _, _, _, hsend, rfl⟩

/-- FRAME_TICK reports no error. -/
theorem execFrameTick_reports {s t : State} {e : Event} (h : execFrameTick s = .next t) (he : e ∈ newEvents s t) :
    eventClass e = .result := by
  obtain rfl | ⟨a, c, len, u, hsend, hout⟩ := execFrameTick_counts_or_sends h
  · simp [newEvents] at he
  · rw [newEvents, ← hout] at he
    exact sendFrame_reports hsend he

/-! ### Recovery -/

/-- What an error event leaves behind: an error of the command changed nothing else, an error of the wire put the decoder
back in `Idle`, and a budget that ran out starts again (R231, R234). -/
def RecoveredFrom (e : Event) (s t : State) : Prop :=
  (eventClass e = .operationError → t = s.emit [e]) ∧
    (eventClass e = .framingError → t.rxState = .idle) ∧
    (e = .budgetExhausted → t.byteCount = 0)

theorem recoveredFrom_result {e : Event} (s t : State) (h : eventClass e = .result) : RecoveredFrom e s t :=
  ⟨fun h' => by simp [h] at h', fun h' => by simp [h] at h', by rintro rfl; cases h⟩

/-- An operation that reports exactly one error of the command, and does nothing else. -/
theorem recoveredFrom_emit {e e' : Event} (s : State) (hclass : eventClass e' = .operationError)
    (he : e ∈ newEvents s (s.emit [e'])) : RecoveredFrom e s (s.emit [e']) := by
  rw [newEvents_emit] at he
  obtain rfl := List.mem_singleton.1 he
  exact ⟨fun _ => rfl, fun h => by simp [hclass] at h, by rintro rfl; cases hclass⟩

/-- Settles O21: RX_BYTE reports no error of the command, TXB_WR and TX_SEND report one and nothing else, and no other
operation reports an error. -/
theorem errorsAreRecoveredLocally : Obligations.ErrorsAreRecoveredLocally := by
  intro i s t e h he
  change RecoveredFrom e s t
  cases i with
  | rxByte b =>
    obtain ⟨hclass, hidle, hcount⟩ := execRxByte_reports h he
    exact ⟨fun h' => absurd h' hclass, fun _ => hidle, hcount⟩
  | qPush id v =>
    obtain ⟨-, rfl⟩ | ⟨-, -, rfl⟩ := execQPush_eq_next id v s t h <;> simp [newEvents] at he
  | qPop => exact recoveredFrom_result s t (execQPop_reports h he)
  | qClear =>
    obtain rfl := Host.Outcome.next.inj h
    simp [newEvents] at he
  | frameTick => exact recoveredFrom_result s t (execFrameTick_reports h he)
  | setAddr a f =>
    obtain rfl := Host.Outcome.next.inj h
    simp [newEvents] at he
  | txbWr k b =>
    obtain ⟨-, rfl⟩ | ⟨-, rfl⟩ := execTxbWr_eq_next k b s t h
    · exact recoveredFrom_emit s rfl he
    · simp [newEvents] at he
  | txSend a c len =>
    rcases Nat.lt_or_ge s.params.txPayloadMax len.toNat with hover | hfits
    · obtain rfl := Host.Outcome.next.inj ((exec_txSend_of_gt s a c len hover).symm.trans h)
      exact recoveredFrom_emit s rfl he
    · rw [exec_txSend_of_le s a c len hfits] at h
      exact recoveredFrom_result s t (sendFrame_reports h he)

end Sys2Proof.Machine
end

