-- ==== Sys2Proof/Proofs/Reset.lean ====
section
/-! SUPPORT. Reset and the command port (spec/70_reset_and_hazards.md R260, R261). -/

namespace Sys2Proof.Machine

/-- A step with nothing untaken and `p` presented takes `p` off the port and nothing else. -/
theorem step_presented {s : State} (p : PortInput) (rest : List PortInput) (hw : s.params.wellFormed = true)
    (hu : s.untaken = []) : step { s with port := p :: rest } = acceptInput p { s with port := rest } :=
  step_accepts (s := { s with port := p :: rest }) hw hu rfl

/-- The port takes reset the same way with and without a word in the same cycle (R261). -/
theorem acceptInput_resetWithOperation (w : OpWord) (s : State) :
    acceptInput (.resetWithOperation w) s = acceptInput .reset s := rfl

/-- Settles O10: the two steps each take their input off the port, which leaves the same state to reset, and the reset
keeps the interface. -/
theorem resetWinsOverAnOperation : Obligations.ResetWinsOverAnOperation := by
  intro s w rest hw hu
  have hreset : step { s with port := .reset :: rest } = .next (State.applyReset { s with port := rest }) :=
    step_presented .reset rest hw hu
  constructor
  · rw [step_presented _ rest hw hu, step_presented _ rest hw hu, acceptInput_resetWithOperation]
  · exact ⟨_, hreset, State.applyReset_port _, (State.applyReset_untaken _).trans hu, State.applyReset_takes _⟩

end Sys2Proof.Machine
end
